-- ==== Sys2Proof/Word.lean ====
section
/-! DEFINITION. The word types of the codec core: bytes, command words, operand fields, buffer ids (rules R5, R40). -/

namespace Sys2Proof

/-- One 8-bit byte: a buffer element, an accessor register, a mask (rule R5, "byte width"). -/
abbrev Byte := BitVec 8

/-- One command word, `CMDW` = 128 bits (rules R5 and R40). -/
abbrev Cmd := BitVec 128

/-- A 4-bit field of a command word: `OP`, `FA`, `FB` (rule R40). -/
abbrev Nibble := BitVec 4

/-- A bit-offset or bit-count field, `OPW` = 32 bits, read unsigned (rules R5 and R42). -/
abbrev Operand := BitVec 32

/-- One of the `NBUF` = 16 buffer identifiers (rules R5 and R26). -/
abbrev BufId := Fin 16

end Sys2Proof
end

