-- ==== Sys2Proof/Config.lean ====
section
/-! DEFINITION. What an implementation fixes, and the free values: values the spec leaves without a value. -/

namespace Sys2Proof

/-- `N_MAX`, the largest accessor byte count (rule R5). -/
abbrev Config.nMax : Nat := 8

/-- FREE VALUE. What a read gives where the machine holds no value: byte `k` of buffer `place` before the host has
written it (rule R24; U8: "any value", "a draw fixed at launch"). Place number 16 stands for `ACC`, index 8 and up, and a
place-16 value is never read by a command (rules R63, R67). Notes: assumption 4. -/
opaque Config.unheldByte : (place k : Nat) → Byte

/-- FREE VALUE. What stands for `Mask(start, count)` outside its domain, where rule R48 says it "has no value", and so the
`mask` port of the generator while `range_err = 1`, where rule R49 calls it "not meaningful". Notes: assumption 7. -/
opaque Config.maskOutsideDomain : (start count : Nat) → Byte

end Sys2Proof
end

