-- ==== Sys2Proof/Syntax.lean ====
section
/-! DEFINITION. The command set: one constructor for each row of spec/opcode_table.json (rules R41, R43, R46). -/

namespace Sys2Proof

/-- A command with its operands, named as rule R46 names them. -/
inductive Instr where
  /-- `MASK start, count` (rule R50). -/
  | mask (start count : Nibble)
  /-- `COPY src, dst, s, d, n` (rule R62). -/
  | copy (src dst : BufId) (s d n : Operand)
  /-- `GET.N buf, start, bc` (rule R63). -/
  | get (buf : BufId) (n : Nibble) (start bc : Operand)
  /-- `SET.N buf, start, bc` (rule R67). -/
  | set (buf : BufId) (n : Nibble) (start bc : Operand)
  deriving DecidableEq, Repr

end Sys2Proof
end

