-- ==== Sys2Proof/WellFormed.lean ====
section
/-! DEFINITION. Which terms of `Instr` are commands: the one operand condition a field's width does not carry
(rules R43, R44.5). -/

namespace Sys2Proof

/-- An accessor byte count a command may name: `1 <= N <= 8` (rules R43, R44.5). -/
def legalAccessorCount (n : Nibble) : Bool := 1 ≤ n.toNat && n.toNat ≤ Config.nMax

/-- `true` when the term is a command of rule R43. MASK and COPY admit every operand their fields can hold. -/
def Instr.wellFormed : Instr → Bool
  | .mask _ _ => true
  | .copy _ _ _ _ _ => true
  | .get _ n _ _ => legalAccessorCount n
  | .set _ n _ _ => legalAccessorCount n

end Sys2Proof
end

