-- ==== Sys2Proof/Decode.lean ====
section
/-! DEFINITION. The 128-bit command word: its fields, the decoder (rule R47, total on every word), the encoder. -/

namespace Sys2Proof

/-! ## Fields (rule R40) -/

/-- `OP`, bits [3:0]. -/
def fieldOP (cmd : Cmd) : Nibble := cmd.extractLsb' 0 4
/-- `FA`, bits [7:4]. -/
def fieldFA (cmd : Cmd) : Nibble := cmd.extractLsb' 4 4
/-- `FB`, bits [11:8]. -/
def fieldFB (cmd : Cmd) : Nibble := cmd.extractLsb' 8 4
/-- `RSV`, bits [31:12]. -/
def fieldRSV (cmd : Cmd) : BitVec 20 := cmd.extractLsb' 12 20
/-- `X`, bits [63:32]. -/
def fieldX (cmd : Cmd) : Operand := cmd.extractLsb' 32 32
/-- `Y`, bits [95:64]. -/
def fieldY (cmd : Cmd) : Operand := cmd.extractLsb' 64 32
/-- `CNT`, bits [127:96]. -/
def fieldCNT (cmd : Cmd) : Operand := cmd.extractLsb' 96 32

/-- A 4-bit field read as a buffer id. -/
def bufIdOfField (f : Nibble) : BufId := ⟨f.toNat, f.isLt⟩

/-- A buffer id as the 4-bit field that names it. -/
def fieldOfBufId (id : BufId) : Nibble := BitVec.ofNat 4 id.val

/-! ## Decoding (rules R41, R44, R47) -/

/-- Why a word is no command: the conditions of rule R44. Each raises ILLEGAL_COMMAND. -/
inductive Illegal where
  /-- R44.1: `OP` is 0 or in 5..15. -/
  | opcode
  /-- R44.2: `RSV` is not 0. -/
  | reservedField
  /-- R44.3 and R44.4: a field the command does not use is not 0. -/
  | unusedField
  /-- R44.5: GET or SET with `FB` = 0 or `FB` >= 9. -/
  | accessorCount
  deriving DecidableEq, Repr

/-- The command a word is, or why it is none; the tests stand in the order of rule R47. -/
def decode (cmd : Cmd) : Except Illegal Instr :=
  if fieldRSV cmd ≠ 0 then .error .reservedField
  else if fieldOP cmd = 1 then
    if fieldX cmd ≠ 0 ∨ fieldY cmd ≠ 0 ∨ fieldCNT cmd ≠ 0 then .error .unusedField
    else .ok (.mask (fieldFA cmd) (fieldFB cmd))
  else if fieldOP cmd = 2 then
    .ok (.copy (bufIdOfField (fieldFA cmd)) (bufIdOfField (fieldFB cmd)) (fieldX cmd) (fieldY cmd) (fieldCNT cmd))
  else if fieldOP cmd = 3 then
    if fieldY cmd ≠ 0 then .error .unusedField
    else if legalAccessorCount (fieldFB cmd) = false then .error .accessorCount
    else .ok (.get (bufIdOfField (fieldFA cmd)) (fieldFB cmd) (fieldX cmd) (fieldCNT cmd))
  else if fieldOP cmd = 4 then
    if fieldY cmd ≠ 0 then .error .unusedField
    else if legalAccessorCount (fieldFB cmd) = false then .error .accessorCount
    else .ok (.set (bufIdOfField (fieldFA cmd)) (fieldFB cmd) (fieldX cmd) (fieldCNT cmd))
  else .error .opcode

/-! ## Encoding (rules R40, R43) -/

/-- A command word from its fields, `RSV` = 0 (rule R40). -/
def packCmd (op fa fb : Nibble) (x y cnt : Operand) : Cmd :=
  cnt ++ y ++ x ++ (0 : BitVec 20) ++ fb ++ fa ++ op

/-- The command word of an instruction, field by field from the table of rule R43. -/
def encode : Instr → Cmd
  | .mask start count => packCmd 1 start count 0 0 0
  | .copy src dst s d n => packCmd 2 (fieldOfBufId src) (fieldOfBufId dst) s d n
  | .get buf n start bc => packCmd 3 (fieldOfBufId buf) n start 0 bc
  | .set buf n start bc => packCmd 4 (fieldOfBufId buf) n start 0 bc

/-! ## The host's view of the decoder -/

/-- The command word that `nbits` low bits of `w` spell, every bit above them 0. -/
def tableWord (nbits w : Nat) : Cmd := BitVec.ofNat 128 (w % 2 ^ nbits)

/-- What the decoder reads from the word whose bits are `w`; `none` where it refuses. A command is one 128-bit word, not
bytes in a buffer (rules R38, R40), so its bits are numbered as the table numbers them. -/
def decodeTableWord (nbits w : Nat) : Option Instr := (decode (tableWord nbits w)).toOption

end Sys2Proof
end

