-- ==== Sys2Proof/Machine/State.lean ====
section
/-! DEFINITION. The state of the machine (rules R13 to R19, R22), the host's side of it (rules R20, R94), the reasons a
step stops, and the state after reset (rule R24). -/

namespace Sys2Proof.Machine

/-! ## Reasons to stop -/

/-- The machine has no fault that stops it. Every fault the spec names (ILLEGAL_COMMAND, INVALID_WIDTH, OUT_OF_BOUNDS,
MASK_RANGE) has an entry the spec describes (rule R86) and is a NEXT state with `STATE` = FAULTED, so this closed inductive
has no constructor and no step can answer one. Safe. Notes: assumption 11. -/
inductive Fault where
  deriving DecidableEq, Repr

/-- Why a step gives no next state. -/
inductive Refusal where
  /-- Raised by an arm of `exec` for an instruction that has no meaning yet; no arm raises it today. Safe. -/
  | notModelled (mnemonic : String)
  /-- Raised by COPY when source and destination are one buffer and the touched byte ranges meet. Rule R61: "The result of
  an overlapping copy is undefined"; "a model must refuse to give a result" (U1). Safe. -/
  | overlappingCopy
  /-- Raised by a host read or write of a buffer byte at or beyond `BUF_LEN[id]`. Rule R94: "the host interface gives it no
  meaning"; U10: `refuse`. Safe. -/
  | hostAccessOutsideBuffer
  deriving DecidableEq, Repr

/-! ## The host's side: what it has yet to do, and what it has read -/

/-- What a host read names (rule R94, "read a register" and "read a buffer byte"). -/
inductive ReadTarget where
  | accByte (i : Fin 8)
  | maskResult
  | runState
  | causeCode
  | faultCmd
  | bufByte (id : BufId) (k : Nat)
  deriving DecidableEq, Repr

/-- One item of a program: a command, or a host action of rule R94's table. -/
inductive HostAction where
  /-- `host: reset`, with the `host: BUF_LEN[id] = n` actions the host does while reset is held ("only before reset is
  released"), in order; with an empty list the lengths stay. Notes: assumptions 3, 17. -/
  | reset (lengths : List (BufId × Nat))
  /-- Issue a command word. -/
  | issue (cmd : Cmd)
  /-- `host: a[i] <- v`. -/
  | writeAcc (i : Fin 8) (v : Byte)
  /-- `host: BUF[id][k] <- v`. -/
  | writeByte (id : BufId) (k : Nat) (v : Byte)
  /-- `host: BUF[id] <- [v0, v1, ...]`. -/
  | loadBuffer (id : BufId) (bytes : List Byte)
  /-- `host: read ...`. -/
  | read (what : ReadTarget)
  deriving DecidableEq, Repr

/-- What one host read returned, zero-extended to the width of the widest register. -/
structure Reply where
  what : ReadTarget
  value : BitVec 128
  deriving DecidableEq, Repr

/-- The host's own bookkeeping; rule R20 keeps the program and the position in it with the host. Notes: assumptions 1, 2. -/
structure HostSide where
  /-- The items the host has yet to issue, first one first. -/
  pending : List HostAction
  /-- What host reads have returned, latest first. -/
  replies : List Reply
  deriving DecidableEq, Repr

/-! ## The state -/

/-- What the machine knows of one buffer's contents: (byte index, byte) pairs, indices strictly rising, one for each byte
that has been written. An index without a pair holds no known value (rule R24). -/
abbrev Memory := List Host.Cell

/-- The complete state (rule R13), the parameter `BUF_LEN` (rule R5), and the host's side. -/
structure State where
  /-- `ACC` = `a[0]` .. `a[7]` (rule R14). -/
  acc : Vector Byte 8
  /-- `MR`, the mask result (rule R16). -/
  mr : Byte
  /-- `STATE`: 0 READY, 1 FAULTED (rule R17). -/
  stateBit : BitVec 1
  /-- `CAUSE` (rule R18). -/
  cause : BitVec 4
  /-- `FCMD`, the command word that faulted (rule R19). -/
  fcmd : Cmd
  /-- `BUF_LEN[id]`, in bytes (rules R5, R26). -/
  bufLen : Vector Nat 16
  /-- `BUF[id]` (rules R22, R26). -/
  buf : Vector Memory 16
  /-- The host's side (rules R20, R94). -/
  host : HostSide
  deriving DecidableEq, Repr

/-- The machine right after reset (rules R24, R96), with the host's lengths `lengths` and the program `program`; no buffer
byte holds a known value. -/
def State.resetWith (lengths : Vector Nat 16) (program : List HostAction) : State :=
  { acc := Vector.replicate 8 0, mr := 0, stateBit := 0, cause := 0, fcmd := 0, bufLen := lengths,
    buf := Vector.replicate 16 [], host := { pending := program, replies := [] } }

/-- The machine right after reset: every register as rule R24 says, no program, and every `BUF_LEN` 0 ("the buffer does
not exist"), a DESIGN CHOICE for a parameter the spec leaves OPEN. Notes: assumption 3. -/
def State.reset : State := State.resetWith (Vector.replicate 16 0) []

end Sys2Proof.Machine
end

