-- ==== Sys2Proof/Machine/Ops.lean ====
section
/-! DEFINITION. The shared operations: one buffer's memory, byte access to buffers and `ACC` (rules R26, R53), taking a
fault (rule R86), and reset, the only return from one (rules R88, R96). -/

namespace Sys2Proof.Machine

/-! ## One buffer's memory -/

/-- The byte written last at index `k`; `none` when none has been written. -/
def Memory.lookup : Memory → Nat → Option Byte
  | [], _ => none
  | (a, b) :: m, k => if a = k then some b else Memory.lookup m k

/-- Store `v` at index `k`, keeping the indices strictly rising. -/
def Memory.write : Memory → Nat → Byte → Memory
  | [], k, v => [(k, v)]
  | (a, b) :: m, k, v =>
    if k < a then (k, v) :: (a, b) :: m else if k = a then (k, v) :: m else (a, b) :: Memory.write m k v

/-- Keep only the bytes at indices below `len`. -/
def Memory.truncate (m : Memory) (len : Nat) : Memory := m.filter (fun c => c.1 < len)

/-- The canonical form: indices strictly rising. -/
abbrev Memory.wf (m : Memory) : Prop := (m.map (fun c => c.1)).Pairwise (· < ·)

/-- Every index that holds a byte is below `len`. -/
abbrev Memory.within (m : Memory) (len : Nat) : Prop := ∀ c ∈ m, c.1 < len

/-! ## Places a copy reads and writes (rule R53: "each either a buffer id or `ACC`") -/

/-- A source or destination of `CopyBits`. -/
inductive Place where
  | buffer (id : BufId)
  | acc
  deriving DecidableEq, Repr

/-- `len(B)` of rule R53, in bytes. -/
def State.placeLen (s : State) : Place → Nat
  | .buffer id => s.bufLen[id]
  | .acc => 8

/-- `Rd(B, k)` of rule R53. A byte nothing has written reads as a free value (rule R24, U8). -/
def State.byteAt (s : State) : Place → Nat → Byte
  | .buffer id, k => (s.buf[id].lookup k).getD (Config.unheldByte id.val k)
  | .acc, k => s.acc[k]?.getD (Config.unheldByte 16 k)

/-- `Wr(B, k, v)` of rule R53. -/
def State.setByte (s : State) : Place → Nat → Byte → State
  | .buffer id, k, v => { s with buf := s.buf.set id (s.buf[id].write k v) }
  | .acc, k, v => { s with acc := s.acc.setIfInBounds k v }

/-- `for i in 0..7: a[i] <- 0x00` (rules R63, R96). -/
def State.clearAcc (s : State) : State := { s with acc := Vector.replicate 8 0 }

/-! ## Taking a fault (rules R80, R86) -/

/-- The fault causes of rule R80. -/
inductive FaultCause where
  | illegalCommand
  | invalidWidth
  | outOfBounds
  | maskRange
  deriving DecidableEq, Repr

/-- Cause codes (rule R80); 0 is NONE, 5 to 15 are never written. -/
def FaultCause.code : FaultCause → BitVec 4
  | .illegalCommand => 1
  | .invalidWidth => 2
  | .outOfBounds => 3
  | .maskRange => 4

/-- `raise <Cause>(cmd)` (rule R86): the three writes of fault entry and nothing else. -/
def State.raiseFault (s : State) (c : FaultCause) (cmd : Cmd) : State :=
  { s with stateBit := 1, cause := c.code, fcmd := cmd }

/-- `fault_o`, the one output level (rule R89). -/
def State.faultO (s : State) : BitVec 1 := s.stateBit

/-! ## Reset (rules R24, R88, R96) -/

/-- The effect of reset on the core: READY, the record of the fault cleared, `MR` and `ACC` zero, the buffers untouched. -/
def State.resetCore (s : State) : State :=
  { s with stateBit := 0, cause := 0, fcmd := 0, mr := 0, acc := Vector.replicate 8 0 }

/-- The lengths after the host's length actions `host: BUF_LEN[id] = n`, in order (rule R94). -/
def setLengths (lens : Vector Nat 16) : List (BufId × Nat) → Vector Nat 16
  | [] => lens
  | (id, n) :: more => setLengths (lens.set id n) more

/-- Buffer `id` holds no byte at its length or beyond (rule R26). -/
def State.dropBeyond (s : State) (id : BufId) : State :=
  { s with buf := s.buf.set id (s.buf[id].truncate s.bufLen[id]) }

/-- The same of every buffer `lengths` names. -/
def State.dropNamedBeyond (s : State) : List (BufId × Nat) → State
  | [] => s
  | (id, _) :: more => (s.dropBeyond id).dropNamedBeyond more

/-- The host's length actions while reset is held. DESIGN CHOICE, where the spec is silent: an action that names a buffer again
replaces the length named before it, and only the lengths that stand when reset is released count, so a byte below that length
is kept however short a length named in between was. Notes: assumptions 3, 17. -/
def State.fixLengths (s : State) (lengths : List (BufId × Nat)) : State :=
  { s with bufLen := setLengths s.bufLen lengths }.dropNamedBeyond lengths

/-! ## The host's side -/

/-- The host has `rest` still to do. -/
def State.setPending (s : State) (rest : List HostAction) : State := { s with host := { s.host with pending := rest } }

/-- Record what a host read returned. -/
def State.reply (s : State) (r : Reply) : State := { s with host := { s.host with replies := r :: s.host.replies } }

end Sys2Proof.Machine
end

