-- ==== Sys2Proof/Machine/Operands.lean ====
section
/-! DEFINITION. How operands are read: bit numbering (rules R7, R8), the integer view of `ACC` (rule R9), field geometry
(rule R10). -/

namespace Sys2Proof.Machine

/-- `msb(b, i)`: bit `i` of a byte counted from the most significant (rule R7). -/
def msb (b : Byte) (i : Nat) : Bool := b.getMsbD i

/-- `BIT(B, p)`: the bit at bit offset `p` of a place (rule R8). -/
def State.bitAt (s : State) (place : Place) (p : Nat) : Bool := msb (s.byteAt place (p / 8)) (p % 8)

/-- `LE(A, N)` of the accessor file (rule R9): the sum of `256^i * a[i]` over `i < N`. -/
def leValue (acc : Vector Byte 8) : Nat → Nat
  | 0 => 0
  | n + 1 => leValue acc n + 256 ^ n * (acc[n]?.getD 0).toNat

/-- `pad(bc)` (rule R10). -/
def pad (bc : Nat) : Nat := (8 - bc % 8) % 8

/-- `L(bc)`, the number of accessor bytes a field of `bc` bits reaches (rule R10). -/
def fieldBytes (bc : Nat) : Nat := (bc + 7) / 8

/-- `(N * 8 - bc) mod 8`, where a field starts in the accessor array (rules R63, R67). -/
def accBitStart (n bc : Nat) : Nat := (n * 8 - bc) % 8

/-- The first touched byte index of `[p, p + n)` (rule R12). -/
abbrev firstTouched (p : Nat) : Nat := p / 8

/-- The last touched byte index of `[p, p + n)`, for `n >= 1` (rule R12). -/
abbrev lastTouched (p n : Nat) : Nat := (p + n - 1) / 8

/-- Byte index `k` is touched by the bit range `[p, p + n)` (rule R12). -/
def touched (p n k : Nat) : Bool := n != 0 && firstTouched p ≤ k && k ≤ lastTouched p n

end Sys2Proof.Machine
end

