-- ==== Sys2Proof/Machine/Flags.lean ====
section
/-! DEFINITION. The core has no flags (rule R21). Its only status is the fault record, so what stands here is the conditions
that decide it (rules R82 to R84) and the one condition under which a copy has no defined result (rule R61). Sums are
natural numbers and never wrap (rule R42). -/

namespace Sys2Proof.Machine

/-- `range_err` of the mask generator, and MASK_RANGE (rules R49, R84). -/
def maskRangeErr (start count : Nat) : Bool := 8 ≤ start || 8 < start + count

/-- INVALID_WIDTH (rule R82). -/
def widthInvalid (n bc : Nat) : Bool := bc == 0 || 8 * n < bc

/-- The bit range `[p, p + n)` does not fit a buffer of `len` bytes (rule R83). -/
def rangeOutside (len p n : Nat) : Bool := 8 * len < p + n

/-- OUT_OF_BOUNDS of COPY (rule R83): nothing is out of bounds when `n = 0`. -/
def copyOutside (srcLen dstLen s d n : Nat) : Bool := n != 0 && (rangeOutside srcLen s n || rangeOutside dstLen d n)

/-- Source and destination overlap (rule R61): one buffer, and a byte that both ranges touch. -/
def copyOverlaps (src dst : BufId) (s d n : Nat) : Bool :=
  src == dst && n != 0 && firstTouched s ≤ lastTouched d n && firstTouched d ≤ lastTouched s n

end Sys2Proof.Machine
end

