-- ==== Sys2Proof/Machine/MaskGenerator.lean ====
section
/-! DEFINITION. The bit_mask_generator: the function `Mask` (rule R48), the unit (rule R49), the MASK command (rule R50). -/

namespace Sys2Proof.Machine

/-- `Mask(start, count) = (2^count - 1) * 2^(8 - start - count)` on its domain (rule R48); a free value outside, where the
rule gives it no value. -/
def mask (start count : Nat) : Byte :=
  if start < 8 ∧ start + count ≤ 8 then BitVec.ofNat 8 ((2 ^ count - 1) * 2 ^ (8 - start - count))
  else Config.maskOutsideDomain start count

/-- The outputs of the unit (rule R49). -/
structure MaskPorts where
  mask : Byte
  rangeErr : Bool
  deriving DecidableEq, Repr

/-- The bit_mask_generator as a unit: two 4-bit inputs, the mask and the range error (rule R49). -/
def maskUnit (start count : Nibble) : MaskPorts :=
  { mask := mask start.toNat count.toNat, rangeErr := maskRangeErr start.toNat count.toNat }

/-- `ExecMASK` (rule R50). -/
def execMask (start count : Nibble) (s : State) : Host.Outcome State Fault Refusal :=
  if (maskUnit start count).rangeErr then .next (s.raiseFault .maskRange (encode (.mask start count)))
  else .next { s with mr := (maskUnit start count).mask }

end Sys2Proof.Machine
end

