-- ==== Sys2Proof/Machine/BitCopier.lean ====
section
/-! DEFINITION. The bit_copier_engine: the procedure `CopyBits`, step for step (rule R53), and the COPY command (rule
R62). -/

namespace Sys2Proof.Machine

/-- The chunk size, steps a and b of rule R53. -/
def chunkSize (s d remaining : Nat) : Nat := min remaining (min (8 - s % 8) (8 - d % 8))

/-- Step e of rule R53: the signed offset, and the shift that brings source bits to the destination's alignment. -/
def reposition (ext : Byte) (sb db : Nat) : Byte :=
  let off : Int := (db : Int) - (sb : Int)
  if 0 < off then ext >>> off.toNat else ext <<< (0 - off).toNat

/-- Steps c to f of rule R53 for one chunk: clear the destination bits, extract, shift, merge. -/
def copyChunk (src dst : Place) (s d chunk : Nat) (st : State) : State :=
  let cleared := st.setByte dst (d / 8) (st.byteAt dst (d / 8) &&& ~~~ mask (d % 8) chunk)
  let ext := cleared.byteAt src (s / 8) &&& mask (s % 8) chunk
  cleared.setByte dst (d / 8) (cleared.byteAt dst (d / 8) ||| reposition ext (s % 8) (d % 8))

/-- The loop of rule R53. Every iteration takes at least one bit off `remaining`, so `remaining` units of fuel reach its end
(rule R58). -/
def copyLoop : (fuel : Nat) → Place → Place → (s d remaining : Nat) → State → State
  | 0, _, _, _, _, _, st => st
  | fuel + 1, src, dst, s, d, remaining, st =>
    if remaining = 0 then st
    else
      let chunk := chunkSize s d remaining
      copyLoop fuel src dst (s + chunk) (d + chunk) (remaining - chunk) (copyChunk src dst s d chunk st)

/-- `CopyBits(src, dst, s, d, n)` (rule R53). -/
def copyBits (src dst : Place) (s d n : Nat) (st : State) : State := copyLoop n src dst s d n st

/-- How many iterations the loop makes, by the same recursion (rule R58; timing information, no command reads it). -/
def copyIterations : (fuel s d remaining : Nat) → Nat
  | 0, _, _, _ => 0
  | fuel + 1, s, d, remaining =>
    if remaining = 0 then 0
    else 1 + copyIterations fuel (s + chunkSize s d remaining) (d + chunkSize s d remaining)
      (remaining - chunkSize s d remaining)

/-- `ExecCOPY` (rule R62); an overlapping copy has no result (rule R61, U1). -/
def execCopy (src dst : BufId) (s d n : Operand) (st : State) : Host.Outcome State Fault Refusal :=
  if copyOutside st.bufLen[src] st.bufLen[dst] s.toNat d.toNat n.toNat then
    .next (st.raiseFault .outOfBounds (encode (.copy src dst s d n)))
  else if copyOverlaps src dst s.toNat d.toNat n.toNat then .refused .overlappingCopy
  else .next (copyBits (.buffer src) (.buffer dst) s.toNat d.toNat n.toNat st)

end Sys2Proof.Machine
end

