-- ==== Sys2Proof/Machine/FieldExtractor.lean ====
section
/-! DEFINITION. The field_extractor: the GET command (rule R63). -/

namespace Sys2Proof.Machine

/-- `ExecGET` (rule R63): width, then bounds, then zero `ACC` and copy the field into it. -/
def execGet (buf : BufId) (n : Nibble) (start bc : Operand) (s : State) : Host.Outcome State Fault Refusal :=
  if widthInvalid n.toNat bc.toNat then .next (s.raiseFault .invalidWidth (encode (.get buf n start bc)))
  else if rangeOutside s.bufLen[buf] start.toNat bc.toNat then
    .next (s.raiseFault .outOfBounds (encode (.get buf n start bc)))
  else .next (copyBits (.buffer buf) .acc start.toNat (accBitStart n.toNat bc.toNat) bc.toNat s.clearAcc)

end Sys2Proof.Machine
end

