-- ==== Sys2Proof/Machine/FieldInjector.lean ====
section
/-! DEFINITION. The field_injector: the SET command (rule R67). -/

namespace Sys2Proof.Machine

/-- `ExecSET` (rule R67): width, then bounds, then copy the field out of `ACC`. -/
def execSet (buf : BufId) (n : Nibble) (start bc : Operand) (s : State) : Host.Outcome State Fault Refusal :=
  if widthInvalid n.toNat bc.toNat then .next (s.raiseFault .invalidWidth (encode (.set buf n start bc)))
  else if rangeOutside s.bufLen[buf] start.toNat bc.toNat then
    .next (s.raiseFault .outOfBounds (encode (.set buf n start bc)))
  else .next (copyBits .acc (.buffer buf) (accBitStart n.toNat bc.toNat) start.toNat bc.toNat s)

end Sys2Proof.Machine
end

