-- ==== Sys2Proof/Machine/Dispatch.lean ====
section
/-! DEFINITION. One arm per command (rule R47's dispatch). -/

namespace Sys2Proof.Machine

def exec (i : Instr) (s : State) : Host.Outcome State Fault Refusal :=
  match i with
  | .mask start count => Sys2Proof.Machine.execMask start count s
  | .copy src dst sOff dOff n => Sys2Proof.Machine.execCopy src dst sOff dOff n s
  | .get buf n start bc => Sys2Proof.Machine.execGet buf n start bc s
  | .set buf n start bc => Sys2Proof.Machine.execSet buf n start bc s

end Sys2Proof.Machine
end

