-- ==== Sys2Proof/Machine/HostInterface.lean ====
section
/-! DEFINITION. What the host does between commands, other than issuing one (rules R25, R94). -/

namespace Sys2Proof.Machine

/-- `host: reset` (rules R94, R96), after the lengths the host fixes while reset is held. Notes: assumptions 3, 17. -/
def hostReset (lengths : List (BufId × Nat)) (s : State) : Host.Outcome State Fault Refusal :=
  .next (s.fixLengths lengths).resetCore

/-- `host: a[i] <- v` (rule R25). -/
def hostWriteAcc (i : Fin 8) (v : Byte) (s : State) : Host.Outcome State Fault Refusal :=
  .next (s.setByte .acc i.val v)

/-- `host: BUF[id][k] <- v`, for `k < BUF_LEN[id]` (rule R94). -/
def hostWriteByte (id : BufId) (k : Nat) (v : Byte) (s : State) : Host.Outcome State Fault Refusal :=
  if k < s.bufLen[id] then .next (s.setByte (.buffer id) k v) else .refused .hostAccessOutsideBuffer

/-- Write `bytes` at indices `k`, `k + 1`, ... of a buffer. -/
def storeBytes (id : BufId) : (k : Nat) → (bytes : List Byte) → State → State
  | _, [], s => s
  | k, v :: more, s => storeBytes id (k + 1) more (s.setByte (.buffer id) k v)

/-- `host: BUF[id] <- [v0, v1, ...]` (rule R94): `v_k` at index `k`, the bytes beyond a shorter list kept, a
longer list refused whole. Notes: assumption 10. -/
def hostLoadBuffer (id : BufId) (bytes : List Byte) (s : State) : Host.Outcome State Fault Refusal :=
  if bytes.length ≤ s.bufLen[id] then .next (storeBytes id 0 bytes s) else .refused .hostAccessOutsideBuffer

/-- What a host read may name: any register, and a buffer byte below the buffer's length (rule R94). -/
def readable (what : ReadTarget) (s : State) : Bool :=
  match what with
  | .bufByte id k => k < s.bufLen[id]
  | .accByte _ => true
  | .maskResult => true
  | .runState => true
  | .causeCode => true
  | .faultCmd => true

/-- The value a host read returns, zero-extended (rules R25, R94). -/
def readValue (what : ReadTarget) (s : State) : BitVec 128 :=
  match what with
  | .accByte i => s.acc[i].setWidth 128
  | .maskResult => s.mr.setWidth 128
  | .runState => s.stateBit.setWidth 128
  | .causeCode => s.cause.setWidth 128
  | .faultCmd => s.fcmd
  | .bufByte id k => (s.byteAt (.buffer id) k).setWidth 128

/-- `host: read ...` (rule R94): "returns the value; no side effect". Notes: assumption 2. -/
def hostRead (what : ReadTarget) (s : State) : Host.Outcome State Fault Refusal :=
  if readable what s then .next (s.reply { what := what, value := readValue what s })
  else .refused .hostAccessOutsideBuffer

end Sys2Proof.Machine
end

