-- ==== Sys2Proof/Machine/Issue.lean ====
section
/-! DEFINITION. Issuing a command word (rule R47) and taking the host's next item (rules R20, R94). -/

namespace Sys2Proof.Machine

/-- `Issue(cmd)` (rule R47): ignored while FAULTED (rule R88); a word that is no command raises ILLEGAL_COMMAND. -/
def issue (cmd : Cmd) (s : State) : Host.Outcome State Fault Refusal :=
  if s.stateBit = 1 then .next s
  else
    match decode cmd with
    | .error _ => .next (s.raiseFault .illegalCommand cmd)
    | .ok i => exec i s

/-- Do one item of the host's program. -/
def doAction (action : HostAction) (s : State) : Host.Outcome State Fault Refusal :=
  match action with
  | .reset lengths => hostReset lengths s
  | .issue cmd => issue cmd s
  | .writeAcc i v => hostWriteAcc i v s
  | .writeByte id k v => hostWriteByte id k v s
  | .loadBuffer id bytes => hostLoadBuffer id bytes s
  | .read what => hostRead what s

/-- Take the host's next item; with none left the run is over (rule R95) and the machine waits. -/
def takeNext (s : State) : Host.Outcome State Fault Refusal :=
  match s.host.pending with
  | [] => .next s
  | action :: rest => doAction action (s.setPending rest)

/-- Put a command word in front of what the host has yet to do. -/
def presentCmd (cmd : Cmd) (s : State) : State := s.setPending (.issue cmd :: s.host.pending)

end Sys2Proof.Machine
end

