-- ==== Sys2Proof/Machine/Step.lean ====
section
/-! DEFINITION. One step of the machine: the next item of the host's program, done whole (rules R20, R34, R47). -/

namespace Sys2Proof.Machine

/-- One step (rule R34: atomic, in the order the host issues). -/
def step (s : State) : Host.Outcome State Fault Refusal := takeNext s

/-- `s` with the command word of `w` as the host's next item, so that the very next step issues it. -/
def State.withFetchWord (s : State) (nbits w : Nat) : State := presentCmd (tableWord nbits w) s

end Sys2Proof.Machine
end

