-- ==== Sys2Proof/Safety.lean ====
section
/-! DEFINITION. The terms claims are made in: the invariant of the state, canonical accessor contents (rules R10, R71), the
end of a run (rule R95), and which fault a command word must raise, read straight from the fields (rules R44, R82 to R85). -/

namespace Sys2Proof.Machine

/-! ## The invariant -/

/-- `STATE`, `CAUSE` and `FCMD` agree (rules R17 to R19): READY with no record, or FAULTED with one of the four causes. -/
abbrev State.recordConsistent (s : State) : Prop :=
  (s.stateBit = 0 ∧ s.cause = 0 ∧ s.fcmd = 0) ∨ (s.stateBit = 1 ∧ 1 ≤ s.cause.toNat ∧ s.cause.toNat ≤ 4)

/-- Every buffer's memory is in canonical form and holds bytes only below the buffer's length (rule R26). -/
abbrev State.buffersWf (s : State) : Prop := ∀ id : BufId, s.buf[id].wf ∧ s.buf[id].within s.bufLen[id]

/-- The invariant every step keeps. -/
abbrev State.Inv (s : State) : Prop := s.recordConsistent ∧ s.buffersWf

/-! ## The end of a run (rule R95) -/

/-- The host has issued its last item. -/
def State.ended (s : State) : Bool := s.host.pending == []

/-- The run is over and ended well. -/
def State.endedWell (s : State) : Bool := s.ended && s.stateBit == 0

/-! ## Canonical accessor contents -/

/-- Array bit `q` lies in the bit range a field of `bc` bits uses, `[pad(bc), 8 * L(bc))` (rule R10). -/
def inField (bc q : Nat) : Bool := pad bc ≤ q && q < 8 * fieldBytes bc

/-- The accessor file is canonical for `bc` (rule R10, with N = 8). -/
def canonical (bc : Nat) (s : State) : Prop := ∀ q, q < 64 → inField bc q = false → s.bitAt .acc q = false

/-- The array `canon_bc` of what `s` holds in `ACC` (rule R71): its bit `q`. -/
def canonBit (bc : Nat) (s : State) (q : Nat) : Bool := inField bc q && s.bitAt .acc q

/-- The value of an accessor file whose bytes are the little-endian bytes of `v` below index `n` and 0 from there on
(rules R70, R75). -/
abbrev holdsInteger (acc : Vector Byte 8) (n v : Nat) : Prop :=
  ∀ i : Fin 8, acc[i].toNat = if i.val < n then v / 256 ^ i.val % 256 else 0

/-- The weight in `LE` of array bit `q` (rule R9). -/
def bitWeight (q : Nat) : Nat := 8 * (q / 8) + 7 - q % 8

/-! ## Where commands are legal (rules R60 to R64, R67, R82, R83) -/

/-- COPY's ranges fit their buffers, or there is nothing to copy (rules R60, R62). -/
abbrev copyInBounds (src dst : BufId) (s d n : Nat) (st : State) : Prop :=
  n = 0 ∨ (s + n ≤ 8 * st.bufLen[src] ∧ d + n ≤ 8 * st.bufLen[dst])

/-- COPY's source and destination overlap (rule R61). -/
abbrev rangesOverlap (src dst : BufId) (s d n : Nat) : Prop :=
  src = dst ∧ 1 ≤ n ∧ s / 8 ≤ (d + n - 1) / 8 ∧ d / 8 ≤ (s + n - 1) / 8

/-- A GET or SET of this field raises no fault (rules R63, R67). -/
abbrev legalField (buf : BufId) (n start bc : Nat) (s : State) : Prop :=
  1 ≤ n ∧ n ≤ 8 ∧ 1 ≤ bc ∧ bc ≤ 8 * n ∧ start + bc ≤ 8 * s.bufLen[buf]

/-! ## The complete mask table (rule R52) -/

/-- Row `start`, column `count`; the columns a row leaves out are its "fault" entries. -/
def maskTable : List (List Nat) :=
  [ [0x00, 0x80, 0xC0, 0xE0, 0xF0, 0xF8, 0xFC, 0xFE, 0xFF],
    [0x00, 0x40, 0x60, 0x70, 0x78, 0x7C, 0x7E, 0x7F],
    [0x00, 0x20, 0x30, 0x38, 0x3C, 0x3E, 0x3F],
    [0x00, 0x10, 0x18, 0x1C, 0x1E, 0x1F],
    [0x00, 0x08, 0x0C, 0x0E, 0x0F],
    [0x00, 0x04, 0x06, 0x07],
    [0x00, 0x02, 0x03],
    [0x00, 0x01] ]

/-! ## The fault a command word must raise -/

/-- The five conditions of rule R44 on the fields of a word. -/
def illegalWord (cmd : Cmd) : Bool :=
  let op := (fieldOP cmd).toNat
  let n := (fieldFB cmd).toNat
  (op == 0 || 5 ≤ op) || fieldRSV cmd != 0 ||
    (op == 1 && (fieldX cmd != 0 || fieldY cmd != 0 || fieldCNT cmd != 0)) ||
    ((op == 3 || op == 4) && fieldY cmd != 0) || ((op == 3 || op == 4) && (n == 0 || 9 ≤ n))

/-- The fault a word raises on a READY core whose buffers have lengths `lens`: the first that holds in the order of rule R85,
under the conditions of rules R81 to R84; `none` when it raises none. -/
def expectedFault (cmd : Cmd) (lens : Vector Nat 16) : Option FaultCause :=
  let fa := (fieldFA cmd).toNat
  let fb := (fieldFB cmd).toNat
  let x := (fieldX cmd).toNat
  let y := (fieldY cmd).toNat
  let cnt := (fieldCNT cmd).toNat
  if illegalWord cmd then some .illegalCommand
  else if (fieldOP cmd).toNat = 1 then
    if 8 ≤ fa ∨ 8 < fa + fb then some .maskRange else none
  else if (fieldOP cmd).toNat = 2 then
    if 1 ≤ cnt ∧ (x + cnt > 8 * lens[fa]?.getD 0 ∨ y + cnt > 8 * lens[fb]?.getD 0) then some .outOfBounds else none
  else
    if cnt = 0 ∨ cnt > 8 * fb then some .invalidWidth
    else if x + cnt > 8 * lens[fa]?.getD 0 then some .outOfBounds else none

/-- The word is a COPY within one buffer, of at least one bit, whose two touched byte ranges meet (rule R61). -/
def overlappingWord (cmd : Cmd) : Bool :=
  let s := (fieldX cmd).toNat
  let d := (fieldY cmd).toNat
  let n := (fieldCNT cmd).toNat
  (fieldOP cmd).toNat == 2 && fieldFA cmd == fieldFB cmd && 1 ≤ n && s / 8 ≤ (d + n - 1) / 8 && d / 8 ≤ (s + n - 1) / 8

/-- The length of a buffer after the host's length actions: the last that names it, else the length it had (rule R94;
assumption 17). -/
def lastLength (lengths : List (BufId × Nat)) (id : BufId) (old : Nat) : Nat :=
  match lengths.reverse.find? (fun e => e.1 == id) with
  | some e => e.2
  | none => old

/-- A host action that names a buffer byte at or beyond the buffer's length (rule R94). -/
def hostActionOutside (action : HostAction) (s : State) : Bool :=
  match action with
  | .writeByte id k _ => s.bufLen[id] ≤ k
  | .loadBuffer id bytes => s.bufLen[id] < bytes.length
  | .read (.bufByte id k) => s.bufLen[id] ≤ k
  | .read _ => false
  | .reset _ => false
  | .issue _ => false
  | .writeAcc _ _ => false

end Sys2Proof.Machine
end

