-- ==== Sys2Proof/Certificates/Slice0/Obligations.lean ====
section
/-! DEFINITION. The statements for the provers, in the order of the spec's files. -/

open Sys2Proof Sys2Proof.Machine

/-! ## Encoding (30_encoding.md) -/

/-- Derived from rules R40 and R43: an encoded command decodes to itself, every operand at every value. -/
def Obligations.DecodeOfEncode : Prop :=
  ∀ i : Instr, i.wellFormed = true → decode (encode i) = .ok i

/-- Derived from rules R40, R43, R44: a word that decodes is the encoding of what it decodes to, so FCMD (which the meanings
write with `encode`) is the word "bit for bit as issued" (rule R19). -/
def Obligations.EncodeOfDecode : Prop :=
  ∀ (cmd : Cmd) (i : Instr), decode cmd = .ok i → encode i = cmd ∧ i.wellFormed = true

/-- Rule R43: each row's match and mask columns, its operand columns, and GET and SET's condition on `FB`. -/
def Obligations.RowsSelectByMatchAndMask : Prop :=
  ∀ cmd : Cmd,
    (decode cmd = .ok (.mask (fieldFA cmd) (fieldFB cmd)) ↔
      cmd &&& 0xFFFFFFFFFFFFFFFFFFFFFFFFFFFFF00F#128 = 1#128) ∧
    (decode cmd = .ok (.copy (bufIdOfField (fieldFA cmd)) (bufIdOfField (fieldFB cmd)) (fieldX cmd) (fieldY cmd)
        (fieldCNT cmd)) ↔
      cmd &&& 0x000000000000000000000000FFFFF00F#128 = 2#128) ∧
    (decode cmd = .ok (.get (bufIdOfField (fieldFA cmd)) (fieldFB cmd) (fieldX cmd) (fieldCNT cmd)) ↔
      cmd &&& 0x00000000FFFFFFFF00000000FFFFF00F#128 = 3#128 ∧ 1 ≤ (fieldFB cmd).toNat ∧ (fieldFB cmd).toNat ≤ 8) ∧
    (decode cmd = .ok (.set (bufIdOfField (fieldFA cmd)) (fieldFB cmd) (fieldX cmd) (fieldCNT cmd)) ↔
      cmd &&& 0x00000000FFFFFFFF00000000FFFFF00F#128 = 4#128 ∧ 1 ≤ (fieldFB cmd).toNat ∧ (fieldFB cmd).toNat ≤ 8)

/-- Rule R44: the five conditions make a word illegal, an illegal word raises ILLEGAL_COMMAND (cause 1), and every other word
is a command, whatever the buffers' lengths are. -/
def Obligations.IllegalWordsRaiseIllegalCommand : Prop :=
  ∀ (cmd : Cmd) (s : State), s.stateBit = 0 →
    ((fieldOP cmd).toNat = 0 ∨ 5 ≤ (fieldOP cmd).toNat ∨ fieldRSV cmd ≠ 0 ∨
      (fieldOP cmd = 1 ∧ (fieldX cmd ≠ 0 ∨ fieldY cmd ≠ 0 ∨ fieldCNT cmd ≠ 0)) ∨
      ((fieldOP cmd = 3 ∨ fieldOP cmd = 4) ∧ fieldY cmd ≠ 0) ∨
      ((fieldOP cmd = 3 ∨ fieldOP cmd = 4) ∧ (fieldFB cmd = 0 ∨ 9 ≤ (fieldFB cmd).toNat)) →
        issue cmd s = .next { s with stateBit := 1, cause := 1, fcmd := cmd }) ∧
    (¬ ((fieldOP cmd).toNat = 0 ∨ 5 ≤ (fieldOP cmd).toNat ∨ fieldRSV cmd ≠ 0 ∨
      (fieldOP cmd = 1 ∧ (fieldX cmd ≠ 0 ∨ fieldY cmd ≠ 0 ∨ fieldCNT cmd ≠ 0)) ∨
      ((fieldOP cmd = 3 ∨ fieldOP cmd = 4) ∧ fieldY cmd ≠ 0) ∨
      ((fieldOP cmd = 3 ∨ fieldOP cmd = 4) ∧ (fieldFB cmd = 0 ∨ 9 ≤ (fieldFB cmd).toNat))) →
        ∃ i, decode cmd = .ok i ∧ issue cmd s = exec i s)

/-- A few words of 95_test_vectors.md, section 2.1 (V-E12 to V-E16, V-E1, V-E4, V-E7, V-E9). -/
def Obligations.SpecWordsDecode : Prop :=
  decode 0x00000000000000000000000000000621#128 = .ok (.mask 2 6) ∧
  decode 0x00000006000000020000000500000102#128 = .ok (.copy 0 1 5 2 6) ∧
  decode 0x00000017000000000000000100000403#128 = .ok (.get 0 4 1 23) ∧
  decode 0x00000006000000000000000200000124#128 = .ok (.set 2 1 2 6) ∧
  decode 0x00000000000007D0000003E800000102#128 = .ok (.copy 0 1 1000 2000 0) ∧
  decode 0x00000000000000000000000000000000#128 = .error .opcode ∧
  decode 0x00000000000000000000000000001102#128 = .error .reservedField ∧
  decode 0x00000001000000010000000000000103#128 = .error .unusedField ∧
  decode 0x00000001000000000000000000000903#128 = .error .accessorCount

/-! ## Stepping (30_encoding.md rule R47, 10_state.md rule R20) -/

/-- Derived from rule R47: when the host's next item is a command word that decodes and the core is READY, the step is `exec`
of the decoded command, the item taken off the host's list (assumption 1). -/
def Obligations.StepRunsDecodedCommand : Prop :=
  ∀ (s : State) (cmd : Cmd) (rest : List HostAction) (i : Instr),
    s.host.pending = .issue cmd :: rest → s.stateBit = 0 → decode cmd = .ok i →
      i.wellFormed = true ∧ step s = exec i (s.setPending rest)

/-- Derived from rules R20 and R34, and from the model's host list (assumption 1): a step that goes on takes exactly the first
item off the host's list, and with none left changes nothing. -/
def Obligations.StepTakesItemsInOrder : Prop :=
  (∀ s t : State, step s = .next t → t.host.pending = s.host.pending.tail) ∧
  (∀ s : State, s.host.pending = [] → step s = .next s)

/-! ## State (10_state.md) -/

/-- Rule R16: `MR` changes only by reset or by a MASK command that does not fault, and then holds `Mask(start, count)`. -/
def Obligations.OnlyMaskWritesMR : Prop :=
  ∀ s t : State, step s = .next t → t.mr ≠ s.mr →
    (∃ l rest, s.host.pending = .reset l :: rest ∧ t.mr = 0) ∨
    (∃ cmd rest start count, s.host.pending = .issue cmd :: rest ∧ s.stateBit = 0 ∧
      decode cmd = .ok (.mask start count) ∧ start.toNat < 8 ∧ start.toNat + count.toNat ≤ 8 ∧
      t.mr = mask start.toNat count.toNat ∧ t.stateBit = 0)

/-- Derived from rules R15 and R25: `ACC` changes only by a GET that does not fault, by reset, or by a host write of one byte,
which changes that byte alone. -/
def Obligations.OnlyGetResetAndHostWriteACC : Prop :=
  ∀ s t : State, step s = .next t → t.acc ≠ s.acc →
    (∃ l rest, s.host.pending = .reset l :: rest ∧ t.acc = Vector.replicate 8 0) ∨
    (∃ (i : Fin 8) (v : Byte) (rest : List HostAction), s.host.pending = .writeAcc i v :: rest ∧ t.acc = s.acc.set i v) ∨
    (∃ cmd rest buf n start bc, s.host.pending = .issue cmd :: rest ∧ s.stateBit = 0 ∧
      decode cmd = .ok (.get buf n start bc) ∧ legalField buf n.toNat start.toNat bc.toNat s ∧ t.stateBit = 0)

/-- Derived from rules R22 and R33: the core changes a buffer byte only as a touched byte of a COPY or SET destination (otherwise
the host wrote it, or fixed lengths at reset), and lengths change only at a reset. The model's choices here: a reset item carries
the lengths, which may take bytes away (assumptions 3, 17), and a load changes no byte at or beyond its list's length
(assumption 10, DEDUCED). -/
def Obligations.BufferWritersAndLengths : Prop :=
  ∀ s t : State, step s = .next t →
    (t.bufLen ≠ s.bufLen → ∃ l rest, s.host.pending = .reset l :: rest ∧ l ≠ []) ∧
    (∀ (id : BufId) (k : Nat), t.byteAt (.buffer id) k ≠ s.byteAt (.buffer id) k →
      (∃ l rest, s.host.pending = .reset l :: rest ∧ ∃ n, (id, n) ∈ l ∧ n ≤ k) ∨
      (∃ v rest, s.host.pending = .writeByte id k v :: rest) ∨
      (∃ bytes rest, s.host.pending = .loadBuffer id bytes :: rest ∧ k < bytes.length) ∨
      (∃ cmd rest src so d n, s.host.pending = .issue cmd :: rest ∧ s.stateBit = 0 ∧
        decode cmd = .ok (.copy src id so d n) ∧ touched d.toNat n.toNat k = true) ∨
      (∃ cmd rest n start bc, s.host.pending = .issue cmd :: rest ∧ s.stateBit = 0 ∧
        decode cmd = .ok (.set id n start bc) ∧ touched start.toNat bc.toNat k = true))

/-- Derived from rule R25; that a read's value is recorded in `host.replies` is the model's choice (assumption 2), as is the
host's list (assumption 1): the host reads every register in READY and FAULTED alike; a host write of `a[i]` stores exactly the byte given
and changes nothing else; no host action but reset and issuing a command changes `MR`, `STATE`, `CAUSE` or `FCMD`. -/
def Obligations.HostRegisterAccess : Prop :=
  (∀ (s : State) (rest : List HostAction) (i : Fin 8) (v : Byte), s.host.pending = .writeAcc i v :: rest →
    step s = .next { s.setPending rest with acc := s.acc.set i v }) ∧
  (∀ (s : State) (rest : List HostAction) (what : ReadTarget), s.host.pending = .read what :: rest →
    (∀ id k, what ≠ .bufByte id k) →
      step s = .next { s with host := ⟨rest, ⟨what, readValue what s⟩ :: s.host.replies⟩ } ∧
      (∀ i, what = .accByte i → readValue what s = s.acc[i].setWidth 128) ∧
      (what = .maskResult → readValue what s = s.mr.setWidth 128) ∧
      (what = .runState → readValue what s = s.stateBit.setWidth 128) ∧
      (what = .causeCode → readValue what s = s.cause.setWidth 128) ∧
      (what = .faultCmd → readValue what s = s.fcmd)) ∧
  (∀ (s t : State) (a : HostAction) (rest : List HostAction), s.host.pending = a :: rest →
    (∀ l, a ≠ .reset l) → (∀ cmd, a ≠ .issue cmd) → step s = .next t →
      t.mr = s.mr ∧ t.stateBit = s.stateBit ∧ t.cause = s.cause ∧ t.fcmd = s.fcmd)

/-! ## The mask generator (40_bit_mask_generator.md) -/

/-- Rule R48: `Mask(start, count)` on its domain, bit by bit and as a number. -/
def Obligations.MaskIsContiguousOnes : Prop :=
  ∀ start count : Nat, start < 8 → start + count ≤ 8 →
    (∀ i, i < 8 → msb (mask start count) i = decide (start ≤ i ∧ i < start + count)) ∧
    (mask start count).toNat = (2 ^ count - 1) * 2 ^ (8 - start - count)

/-- Rule R49: the two outputs of the unit; the mask output says nothing while `range_err` is 1. -/
def Obligations.MaskUnitPorts : Prop :=
  ∀ start count : Nibble,
    ((maskUnit start count).rangeErr = true ↔ 8 ≤ start.toNat ∨ 8 < start.toNat + count.toNat) ∧
    ((maskUnit start count).rangeErr = false → (maskUnit start count).mask = mask start.toNat count.toNat)

/-- Rule R50: MASK writes `MR` and nothing else, or raises MASK_RANGE (cause 4) and leaves `MR` as it was. -/
def Obligations.MaskCommandResult : Prop :=
  ∀ (start count : Nibble) (s : State),
    (start.toNat < 8 → start.toNat + count.toNat ≤ 8 →
      exec (.mask start count) s = .next { s with
        mr := BitVec.ofNat 8 ((2 ^ count.toNat - 1) * 2 ^ (8 - start.toNat - count.toNat)) }) ∧
    (8 ≤ start.toNat ∨ 8 < start.toNat + count.toNat →
      exec (.mask start count) s = .next { s with
        stateBit := 1, cause := 4, fcmd := packCmd 1 start count 0 0 0 })

/-- Rule R52: the complete table gives every value of `Mask` and what every operand pair of the MASK command does (a pair
without an entry is a "fault"), and the two laws the copier relies on. -/
def Obligations.MaskTableAndLaws : Prop :=
  (∀ start count : Nat,
    (maskTable[start]?.bind fun row => row[count]?) =
      if start < 8 ∧ start + count ≤ 8 then some (mask start count).toNat else none) ∧
  (∀ (start count : Nibble) (s : State),
    (∀ v, (maskTable[start.toNat]?.bind fun row => row[count.toNat]?) = some v →
      exec (.mask start count) s = .next { s with mr := BitVec.ofNat 8 v }) ∧
    ((maskTable[start.toNat]?.bind fun row => row[count.toNat]?) = none →
      ∃ t, exec (.mask start count) s = .next t ∧ t.stateBit = 1 ∧ t.cause = 4)) ∧
  (∀ (b : Byte) (start count : Nat), start < 8 → start + count ≤ 8 → ∀ i, i < 8 →
    msb (b &&& mask start count) i = (decide (start ≤ i ∧ i < start + count) && msb b i) ∧
    msb (b &&& ~~~ mask start count) i = (!decide (start ≤ i ∧ i < start + count) && msb b i))

/-! ## The bit copier (41_bit_copier_engine.md) -/

/-- Rule R54: a chunk's size, and that one iteration changes exactly one byte, the destination's, whatever it copies. -/
def Obligations.ChunkStaysInOneByte : Prop :=
  (∀ s d remaining : Nat, 0 < remaining →
    1 ≤ chunkSize s d remaining ∧ chunkSize s d remaining ≤ 8 ∧
    s % 8 + chunkSize s d remaining ≤ 8 ∧ d % 8 + chunkSize s d remaining ≤ 8) ∧
  (∀ (src dst : Place) (s d c : Nat) (st : State), (dst = .acc → d < 64) →
    ∀ (q : Place) (k : Nat), ¬ (q = dst ∧ k = d / 8) → (copyChunk src dst s d c st).byteAt q k = st.byteAt q k) ∧
  (∀ (src dst : Place) (s d c : Nat) (st st' : State), (dst = .acc → d < 64) →
    st.byteAt src (s / 8) = st'.byteAt src (s / 8) → st.byteAt dst (d / 8) = st'.byteAt dst (d / 8) →
      (copyChunk src dst s d c st).byteAt dst (d / 8) = (copyChunk src dst s d c st').byteAt dst (d / 8))

/-- Rule R56: the shift of one chunk loses nothing, and merging it sets exactly the bits that were cleared. -/
def Obligations.ShiftLosesNothing : Prop :=
  ∀ (old src : Byte) (sb db c : Nat), sb < 8 → db < 8 → 1 ≤ c → sb + c ≤ 8 → db + c ≤ 8 →
    (∀ i, i < 8 → msb (src &&& mask sb c) i = true → sb ≤ i ∧ i < sb + c) ∧
    (∀ j, j < c → msb (reposition (src &&& mask sb c) sb db) (db + j) = msb src (sb + j)) ∧
    reposition (src &&& mask sb c) sb db &&& ~~~ mask db c = 0 ∧
    (∀ i, i < 8 → msb ((old &&& ~~~ mask db c) ||| reposition (src &&& mask sb c) sb db) i =
      if db ≤ i ∧ i < db + c then msb src (sb + (i - db)) else msb old i)

/-- Rule R57, of `CopyBits` between any two places that do not overlap (rule R61), in bounds (rule R60), and of the COPY
command, which then completes: the destination range holds the source bits, and every other bit of every place is as it
was. -/
def Obligations.CopyMovesExactlyTheRange : Prop :=
  (∀ (src dst : Place) (s d n : Nat) (st : State),
    (n = 0 ∨ (s + n ≤ 8 * st.placeLen src ∧ d + n ≤ 8 * st.placeLen dst)) →
    ¬ (src = dst ∧ 1 ≤ n ∧ s / 8 ≤ (d + n - 1) / 8 ∧ d / 8 ≤ (s + n - 1) / 8) →
      (∀ k, k < n → (copyBits src dst s d n st).bitAt dst (d + k) = st.bitAt src (s + k)) ∧
      (∀ (q : Place) (p : Nat), ¬ (q = dst ∧ d ≤ p ∧ p < d + n) →
        (copyBits src dst s d n st).bitAt q p = st.bitAt q p)) ∧
  (∀ (src dst : BufId) (s d n : Operand) (st : State),
    copyInBounds src dst s.toNat d.toNat n.toNat st → ¬ rangesOverlap src dst s.toNat d.toNat n.toNat →
      ∃ t, exec (.copy src dst s d n) st = .next t ∧
        (∀ k, k < n.toNat → t.bitAt (.buffer dst) (d.toNat + k) = st.bitAt (.buffer src) (s.toNat + k)) ∧
        (∀ (id : BufId) (p : Nat), ¬ (id = dst ∧ d.toNat ≤ p ∧ p < d.toNat + n.toNat) →
          t.bitAt (.buffer id) p = st.bitAt (.buffer id) p))

/-- Derived from rules R33 and R62, COPY's frame: no register, no length, nothing of the host's side changes, no buffer but
the destination, and of it no byte the range does not touch. -/
def Obligations.CopyFrame : Prop :=
  ∀ (src dst : BufId) (s d n : Operand) (st t : State),
    copyInBounds src dst s.toNat d.toNat n.toNat st → exec (.copy src dst s d n) st = .next t →
      t = { st with buf := t.buf } ∧
      (∀ id : BufId, id ≠ dst → t.buf[id] = st.buf[id]) ∧
      (∀ k, touched d.toNat n.toNat k = false → t.byteAt (.buffer dst) k = st.byteAt (.buffer dst) k)

/-- Rule R58: each iteration takes 1 to 8 bits; the loop's iteration count, its bound, its value on equal alignment; and the
loop ends: fuel beyond the bits to copy changes nothing. -/
def Obligations.CopyLoopEnds : Prop :=
  (∀ s d remaining : Nat, 1 ≤ remaining → 1 ≤ chunkSize s d remaining ∧ chunkSize s d remaining ≤ 8) ∧
  (∀ s d n : Nat, 1 ≤ n →
    copyIterations n s d n =
      1 + ((List.range n).filter fun k => 0 < k && ((s + k) % 8 == 0 || (d + k) % 8 == 0)).length ∧
    copyIterations n s d n ≤ 1 + 2 * ((n - 1 + 7) / 8) ∧
    (s % 8 = d % 8 → copyIterations n s d n = (s + n - 1) / 8 - s / 8 + 1)) ∧
  (∀ (src dst : Place) (s d n extra : Nat) (st : State),
    copyLoop (n + extra) src dst s d n st = copyBits src dst s d n st ∧
    copyIterations (n + extra) s d n = copyIterations n s d n)

/-- Rule R59: a copy of zero bits does nothing, whatever the offsets, the buffers and their lengths. -/
def Obligations.ZeroLengthCopyIsNoOp : Prop :=
  (∀ (src dst : Place) (fuel s d : Nat) (st : State),
    copyBits src dst s d 0 st = st ∧ copyLoop fuel src dst s d 0 st = st ∧ copyIterations fuel s d 0 = 0) ∧
  (∀ (src dst : BufId) (s d : Operand) (st : State), exec (.copy src dst s d 0) st = .next st)

/-- Rule R61: in bounds, COPY gives no result exactly when source and destination are one buffer and share a touched byte. -/
def Obligations.OverlappingCopyIsRefused : Prop :=
  ∀ (src dst : BufId) (s d n : Operand) (st : State), copyInBounds src dst s.toNat d.toNat n.toNat st →
    (exec (.copy src dst s d n) st = .refused .overlappingCopy ↔ rangesOverlap src dst s.toNat d.toNat n.toNat)

/-! ## The field extractor (42_field_extractor.md) -/

/-- Rule R64, with rule R63's frame: a legal GET completes, writes `ACC` and nothing else, and `ACC` holds the field's bits in
packed order from array bit `pad(bc)` on, 0 in every other bit, so it is canonical. -/
def Obligations.GetResultShape : Prop :=
  ∀ (buf : BufId) (n : Nibble) (start bc : Operand) (s : State),
    legalField buf n.toNat start.toNat bc.toNat s →
      ∃ t, exec (.get buf n start bc) s = .next t ∧ t = { s with acc := t.acc } ∧
        (∀ q, pad bc.toNat ≤ q → q < pad bc.toNat + bc.toNat →
          t.bitAt .acc q = s.bitAt (.buffer buf) (start.toNat + (q - pad bc.toNat))) ∧
        (∀ q, q < 64 → ¬ (pad bc.toNat ≤ q ∧ q < pad bc.toNat + bc.toNat) → t.bitAt .acc q = false) ∧
        canonical bc.toNat t

/-- Rule R65: GET reads the touched bytes and nothing else. Two GETs of a field whose touched bytes agree leave the same `ACC`,
and neither changes a buffer. -/
def Obligations.GetReadsOnlyTouchedBytes : Prop :=
  ∀ (buf : BufId) (n : Nibble) (start bc : Operand) (s s' : State),
    legalField buf n.toNat start.toNat bc.toNat s → legalField buf n.toNat start.toNat bc.toNat s' →
    (∀ k, touched start.toNat bc.toNat k = true → s.byteAt (.buffer buf) k = s'.byteAt (.buffer buf) k) →
      ∃ t t', exec (.get buf n start bc) s = .next t ∧ exec (.get buf n start bc) s' = .next t' ∧
        t.acc = t'.acc ∧ t.buf = s.buf ∧ t'.buf = s'.buf

/-- Derived from rules R9, R64 and R66: the integer the caller reads at any width that reaches the field. -/
def Obligations.GetIntegerValue : Prop :=
  ∀ (buf : BufId) (n : Nibble) (start bc : Operand) (s : State) (m : Nat),
    legalField buf n.toNat start.toNat bc.toNat s → fieldBytes bc.toNat ≤ m → m ≤ 8 →
      ∃ t, exec (.get buf n start bc) s = .next t ∧
        leValue t.acc m = ((List.range bc.toNat).map fun k =>
          (s.bitAt (.buffer buf) (start.toNat + k)).toNat * 2 ^ bitWeight (pad bc.toNat + k)).sum

/-! ## The field injector (43_field_injector.md) -/

/-- Rule R68: a legal SET completes, puts the field's bits of `ACC` into the range, and leaves every other bit of the buffer,
`ACC` and every other buffer as they were. -/
def Obligations.SetWritesExactlyTheField : Prop :=
  ∀ (buf : BufId) (n : Nibble) (start bc : Operand) (s : State),
    legalField buf n.toNat start.toNat bc.toNat s →
      ∃ t, exec (.set buf n start bc) s = .next t ∧
        (∀ k, k < bc.toNat → t.bitAt (.buffer buf) (start.toNat + k) = s.bitAt .acc (pad bc.toNat + k)) ∧
        (∀ p, ¬ (start.toNat ≤ p ∧ p < start.toNat + bc.toNat) →
          t.bitAt (.buffer buf) p = s.bitAt (.buffer buf) p) ∧
        t.acc = s.acc ∧ (∀ id : BufId, id ≠ buf → t.buf[id] = s.buf[id])

/-- Derived from rules R33 and R67, SET's frame. -/
def Obligations.SetFrame : Prop :=
  ∀ (buf : BufId) (n : Nibble) (start bc : Operand) (s t : State),
    legalField buf n.toNat start.toNat bc.toNat s → exec (.set buf n start bc) s = .next t →
      t = { s with buf := t.buf } ∧
      (∀ id : BufId, id ≠ buf → t.buf[id] = s.buf[id]) ∧
      (∀ k, touched start.toNat bc.toNat k = false → t.byteAt (.buffer buf) k = s.byteAt (.buffer buf) k)

/-- Rule R69: two `ACC` contents that agree on the field's array bits give the same buffers, whatever the stray bits are. -/
def Obligations.SetIgnoresStrayBits : Prop :=
  ∀ (buf : BufId) (n : Nibble) (start bc : Operand) (s : State) (a a' : Vector Byte 8),
    legalField buf n.toNat start.toNat bc.toNat s →
    (∀ k, k < bc.toNat → { s with acc := a }.bitAt .acc (pad bc.toNat + k) =
      { s with acc := a' }.bitAt .acc (pad bc.toNat + k)) →
      ∃ t t', exec (.set buf n start bc) { s with acc := a } = .next t ∧
        exec (.set buf n start bc) { s with acc := a' } = .next t' ∧
        ∀ (id : BufId) (k : Nat), t.byteAt (.buffer id) k = t'.byteAt (.buffer id) k

/-- Derived from rule R70: which bit of the caller's integer each field bit is. -/
def Obligations.SetStoresIntegerBits : Prop :=
  ∀ (buf : BufId) (n : Nibble) (start bc : Operand) (s : State) (v : Nat),
    legalField buf n.toNat start.toNat bc.toNat s →
    (∀ i : Fin 8, i.val < n.toNat → s.acc[i].toNat = v / 256 ^ i.val % 256) →
      ∃ t, exec (.set buf n start bc) s = .next t ∧
        ∀ k, k < bc.toNat → t.bitAt (.buffer buf) (start.toNat + k) = v.testBit (bitWeight (pad bc.toNat + k))

/-! ## Laws of GET and SET together (44_codec_laws.md) -/

/-- Rule R71: SET then GET of one field leaves `canon_bc` of the old `ACC`, and no bit outside the field has changed. -/
def Obligations.RoundTripExact : Prop :=
  ∀ (buf : BufId) (n m : Nibble) (start bc : Operand) (s : State),
    legalField buf n.toNat start.toNat bc.toNat s → legalField buf m.toNat start.toNat bc.toNat s →
      ∃ t u, exec (.set buf n start bc) s = .next t ∧ exec (.get buf m start bc) t = .next u ∧
        (∀ q, q < 64 → u.bitAt .acc q = canonBit bc.toNat s q) ∧
        (∀ p, ¬ (start.toNat ≤ p ∧ p < start.toNat + bc.toNat) →
          u.bitAt (.buffer buf) p = s.bitAt (.buffer buf) p)

/-- Rule R72: a canonical value reads back as it was written. -/
def Obligations.RoundTripCanonical : Prop :=
  ∀ (buf : BufId) (n m : Nibble) (start bc : Operand) (s : State),
    legalField buf n.toNat start.toNat bc.toNat s → legalField buf m.toNat start.toNat bc.toNat s →
    canonical bc.toNat s →
      ∃ t u, exec (.set buf n start bc) s = .next t ∧ exec (.get buf m start bc) t = .next u ∧ u.acc = s.acc

/-- Rule R73: a SET of field A leaves what a GET of a disjoint field B leaves in `ACC`, though they may share a byte; it changes
no bit outside A, and no other buffer. -/
def Obligations.SetLeavesDisjointField : Prop :=
  ∀ (buf : BufId) (nA nB : Nibble) (startA bcA startB bcB : Operand) (s : State),
    legalField buf nA.toNat startA.toNat bcA.toNat s → legalField buf nB.toNat startB.toNat bcB.toNat s →
    (startA.toNat + bcA.toNat ≤ startB.toNat ∨ startB.toNat + bcB.toNat ≤ startA.toNat) →
      ∃ t u v, exec (.set buf nA startA bcA) s = .next t ∧ exec (.get buf nB startB bcB) t = .next u ∧
        exec (.get buf nB startB bcB) s = .next v ∧ u.acc = v.acc ∧
        (∀ p, ¬ (startA.toNat ≤ p ∧ p < startA.toNat + bcA.toNat) →
          t.bitAt (.buffer buf) p = s.bitAt (.buffer buf) p) ∧
        (∀ (id : BufId) (p : Nat), id ≠ buf → t.bitAt (.buffer id) p = s.bitAt (.buffer id) p)

/-- Rule R74: GET then SET of one field leaves every byte of the buffer as it was. -/
def Obligations.ReverseRoundTrip : Prop :=
  ∀ (buf : BufId) (n m : Nibble) (start bc : Operand) (s : State),
    legalField buf n.toNat start.toNat bc.toNat s → legalField buf m.toNat start.toNat bc.toNat s →
      ∃ t u, exec (.get buf n start bc) s = .next t ∧ exec (.set buf m start bc) t = .next u ∧
        ∀ (id : BufId) (k : Nat), u.byteAt (.buffer id) k = s.byteAt (.buffer id) k

/-- Rule R75: the integer that reads back; that it is the one written exactly when that one is canonical; and which integers are
canonical: all below `2^bc` for a width up to 8 or a multiple of 8, and for another width `2^bc` integers that are not those. -/
def Obligations.IntegerRoundTrip : Prop :=
  (∀ (buf : BufId) (n m : Nibble) (start bc : Operand) (s : State) (v : Nat),
    legalField buf n.toNat start.toNat bc.toNat s → legalField buf m.toNat start.toNat bc.toNat s →
    v < 256 ^ n.toNat → holdsInteger s.acc n.toNat v →
      ∃ t u, exec (.set buf n start bc) s = .next t ∧ exec (.get buf m start bc) t = .next u ∧
        leValue u.acc n.toNat = v % 2 ^ (8 * fieldBytes bc.toNat) -
          v % 256 / 2 ^ (8 - pad bc.toNat) * 2 ^ (8 - pad bc.toNat) ∧
        (leValue u.acc n.toNat = v ↔ v < 2 ^ (8 * fieldBytes bc.toNat) ∧ v % 256 < 2 ^ (8 - pad bc.toNat))) ∧
  (∀ bc v : Nat, 1 ≤ bc → bc ≤ 64 → (bc ≤ 8 ∨ bc % 8 = 0) →
    (v < 2 ^ (8 * fieldBytes bc) ∧ v % 256 < 2 ^ (8 - pad bc) ↔ v < 2 ^ bc)) ∧
  (∀ bc : Nat, 8 < bc → bc ≤ 64 → bc % 8 ≠ 0 →
    Nat.count (fun v => v % 256 < 2 ^ (8 - pad bc)) (2 ^ (8 * fieldBytes bc)) = 2 ^ bc ∧
    ∃ v, v < 2 ^ bc ∧ ¬ v % 256 < 2 ^ (8 - pad bc))

/-- Rule R76: SET is idempotent, and SETs on disjoint ranges, of one buffer or of two, each with its own `ACC` contents,
commute. -/
def Obligations.SetsIdempotentAndCommute : Prop :=
  (∀ (buf : BufId) (n : Nibble) (start bc : Operand) (s : State),
    legalField buf n.toNat start.toNat bc.toNat s →
      ∃ t u, exec (.set buf n start bc) s = .next t ∧ exec (.set buf n start bc) t = .next u ∧
        ∀ (id : BufId) (k : Nat), u.byteAt (.buffer id) k = t.byteAt (.buffer id) k) ∧
  (∀ (bufA bufB : BufId) (nA nB : Nibble) (startA bcA startB bcB : Operand) (a b : Vector Byte 8) (s : State),
    legalField bufA nA.toNat startA.toNat bcA.toNat s → legalField bufB nB.toNat startB.toNat bcB.toNat s →
    (bufA ≠ bufB ∨ startA.toNat + bcA.toNat ≤ startB.toNat ∨ startB.toNat + bcB.toNat ≤ startA.toNat) →
      ∃ t u t' u', exec (.set bufA nA startA bcA) { s with acc := a } = .next t ∧
        exec (.set bufB nB startB bcB) { t with acc := b } = .next u ∧
        exec (.set bufB nB startB bcB) { s with acc := b } = .next t' ∧
        exec (.set bufA nA startA bcA) { t' with acc := a } = .next u' ∧
        ∀ (id : BufId) (k : Nat), u.byteAt (.buffer id) k = u'.byteAt (.buffer id) k)

/-- Rule R77: N does not change a legal result; it decides only whether INVALID_WIDTH is raised. -/
def Obligations.AccessorCountDoesNotMatter : Prop :=
  ∀ (buf : BufId) (n m : Nibble) (start bc : Operand) (s : State),
    legalField buf n.toNat start.toNat bc.toNat s →
      (legalField buf m.toNat start.toNat bc.toNat s →
        ∃ t u, exec (.get buf n start bc) s = .next t ∧ exec (.get buf m start bc) s = .next t ∧
          exec (.set buf n start bc) s = .next u ∧ exec (.set buf m start bc) s = .next u) ∧
      (8 * m.toNat < bc.toNat →
        ∃ t u, exec (.get buf m start bc) s = .next t ∧ t.stateBit = 1 ∧ t.cause = 2 ∧
          exec (.set buf m start bc) s = .next u ∧ u.stateBit = 1 ∧ u.cause = 2)

/-- Derived from rules R57, R64, R68 and R98: a field of at most 64 bits moved through `ACC` (GET then SET) lands as a COPY
would put it, when the COPY is defined. -/
def Obligations.GetThenSetMovesAsCopyDoes : Prop :=
  ∀ (src dst : BufId) (n : Nibble) (s d bc : Operand) (st : State),
    legalField src n.toNat s.toNat bc.toNat st → legalField dst n.toNat d.toNat bc.toNat st →
    ¬ rangesOverlap src dst s.toNat d.toNat bc.toNat →
      ∃ t u v, exec (.get src n s bc) st = .next t ∧ exec (.set dst n d bc) t = .next u ∧
        exec (.copy src dst s d bc) st = .next v ∧
        ∀ (id : BufId) (k : Nat), u.byteAt (.buffer id) k = v.byteAt (.buffer id) k

/-! ## Faults (60_exceptions.md) -/

/-- Rule R79: two READY cores with the same lengths and the same command word fault alike, whatever `ACC`, `MR` and the buffers
hold. -/
def Obligations.DataNeverFaults : Prop :=
  ∀ (s s' t t' : State) (cmd : Cmd) (rest rest' : List HostAction),
    s.host.pending = .issue cmd :: rest → s'.host.pending = .issue cmd :: rest' →
    s.stateBit = 0 → s'.stateBit = 0 → s.bufLen = s'.bufLen → step s = .next t → step s' = .next t' →
      t.stateBit = t'.stateBit ∧ (t.stateBit = 1 → t.cause = t'.cause ∧ t.fcmd = t'.fcmd)

/-- Rule R82: GET and SET of an invalid width raise INVALID_WIDTH (cause 2), wherever the field lies; COPY and MASK never
do. -/
def Obligations.InvalidWidthFault : Prop :=
  (∀ (buf : BufId) (n : Nibble) (start bc : Operand) (s : State), (bc.toNat = 0 ∨ 8 * n.toNat < bc.toNat) →
    exec (.get buf n start bc) s = .next { s with stateBit := 1, cause := 2, fcmd := encode (.get buf n start bc) } ∧
    exec (.set buf n start bc) s = .next { s with stateBit := 1, cause := 2, fcmd := encode (.set buf n start bc) }) ∧
  (∀ (src dst : BufId) (so d n : Operand) (s t : State), exec (.copy src dst so d n) s = .next t →
    t.cause = s.cause ∨ t.cause = 3) ∧
  (∀ (start count : Nibble) (s t : State), exec (.mask start count) s = .next t → t.cause = s.cause ∨ t.cause = 4)

/-- Rule R83: the three rows of its table raise OUT_OF_BOUNDS (cause 3) before anything is written, and the range a legal width
uses in `ACC` always fits. -/
def Obligations.OutOfBoundsFault : Prop :=
  (∀ (src dst : BufId) (so d n : Operand) (s : State), 1 ≤ n.toNat →
    (8 * s.bufLen[src] < so.toNat + n.toNat ∨ 8 * s.bufLen[dst] < d.toNat + n.toNat) →
    exec (.copy src dst so d n) s =
      .next { s with stateBit := 1, cause := 3, fcmd := encode (.copy src dst so d n) }) ∧
  (∀ (buf : BufId) (n : Nibble) (start bc : Operand) (s : State), 1 ≤ bc.toNat → bc.toNat ≤ 8 * n.toNat →
    8 * s.bufLen[buf] < start.toNat + bc.toNat →
    exec (.get buf n start bc) s = .next { s with stateBit := 1, cause := 3, fcmd := encode (.get buf n start bc) } ∧
    exec (.set buf n start bc) s = .next { s with stateBit := 1, cause := 3, fcmd := encode (.set buf n start bc) }) ∧
  (∀ n bc : Nat, n ≤ 8 → bc ≤ 8 * n → accBitStart n bc + bc ≤ 64)

/-- Rule R85, with the codes of rule R80: on a READY core a command word raises exactly the fault `expectedFault` reads from its fields and the
lengths (the first condition in the order of rule R85, with the code of rule R80), or none, and then leaves the record as it
was; only an overlapping COPY gives no next state. -/
def Obligations.FaultsExactlyAsTabulated : Prop :=
  (FaultCause.illegalCommand.code = 1 ∧ FaultCause.invalidWidth.code = 2 ∧ FaultCause.outOfBounds.code = 3 ∧
    FaultCause.maskRange.code = 4) ∧
  ∀ (s : State) (cmd : Cmd) (rest : List HostAction), s.host.pending = .issue cmd :: rest → s.stateBit = 0 →
    (∀ c, expectedFault cmd s.bufLen = some c →
      step s = .next { s.setPending rest with stateBit := 1, cause := c.code, fcmd := cmd }) ∧
    (expectedFault cmd s.bufLen = none → overlappingWord cmd = true → step s = .refused .overlappingCopy) ∧
    (expectedFault cmd s.bufLen = none → overlappingWord cmd = false →
      ∃ t, step s = .next t ∧ t.stateBit = 0 ∧ t.cause = s.cause ∧ t.fcmd = s.fcmd)

/-- Rule R86: fault entry writes `STATE`, `CAUSE` and `FCMD`, the issued word bit for bit, and nothing else. -/
def Obligations.FaultEntryWritesOnlyTheRecord : Prop :=
  ∀ (s t : State) (cmd : Cmd) (rest : List HostAction), s.host.pending = .issue cmd :: rest → s.stateBit = 0 →
    step s = .next t → t.stateBit = 1 →
      t = { s.setPending rest with stateBit := 1, cause := t.cause, fcmd := cmd } ∧
      1 ≤ t.cause.toNat ∧ t.cause.toNat ≤ 4 ∧ t.faultO = 1

/-- Rule R88: a FAULTED core ignores every command word; no host action but reset changes `STATE`, `CAUSE` or `FCMD`; reset
clears them; a host write of `a[i]`, of a buffer byte or of a whole buffer has its effect and no other; a host read changes
nothing of the core; no host action inside its buffer is refused. What a read returns, and a load of fewer bytes than the buffer
has, are in HostRegisterAccess and HostBufferAccess, which hold in READY and FAULTED alike. -/
def Obligations.FaultedUntilReset : Prop :=
  ∀ s : State, s.stateBit = 1 →
    (∀ cmd rest, s.host.pending = .issue cmd :: rest → step s = .next (s.setPending rest)) ∧
    (∀ t, step s = .next t → (∀ l rest, s.host.pending ≠ .reset l :: rest) →
      t.stateBit = 1 ∧ t.cause = s.cause ∧ t.fcmd = s.fcmd) ∧
    (∀ l rest, s.host.pending = .reset l :: rest →
      ∃ t, step s = .next t ∧ t.stateBit = 0 ∧ t.cause = 0 ∧ t.fcmd = 0) ∧
    (∀ i v rest, s.host.pending = .writeAcc i v :: rest →
      step s = .next { s.setPending rest with acc := s.acc.set i v }) ∧
    (∀ id k v rest, s.host.pending = .writeByte id k v :: rest → k < s.bufLen[id] →
      ∃ t, step s = .next t ∧ t = { s.setPending rest with buf := t.buf } ∧ t.byteAt (.buffer id) k = v ∧
        ∀ (id' : BufId) (j : Nat), ¬ (id' = id ∧ j = k) → t.byteAt (.buffer id') j = s.byteAt (.buffer id') j) ∧
    (∀ id bytes rest, s.host.pending = .loadBuffer id bytes :: rest → bytes.length = s.bufLen[id] →
      ∃ t, step s = .next t ∧ t = { s.setPending rest with buf := t.buf } ∧
        (∀ j (h : j < bytes.length), t.byteAt (.buffer id) j = bytes[j]) ∧
        ∀ (id' : BufId) (j : Nat), id' ≠ id → t.byteAt (.buffer id') j = s.byteAt (.buffer id') j) ∧
    (∀ what rest, s.host.pending = .read what :: rest → hostActionOutside (.read what) s = false →
      ∃ t, step s = .next t ∧ t = { s.setPending rest with host := t.host }) ∧
    (∀ a rest, s.host.pending = a :: rest → hostActionOutside a s = false → ∃ t, step s = .next t)

/-- Derived from rules R25 and R94: a host write of a buffer byte below the length stores it and changes no other byte of any
place; a whole-buffer write stores each byte at its index; a host read returns the byte. The model's choices here: the bytes beyond
a list shorter than the buffer are kept (assumption 10, DEDUCED, unsafe for such a list), the value read is recorded in
`host.replies` (assumption 2), and the host's items stand in a list (assumption 1). -/
def Obligations.HostBufferAccess : Prop :=
  (∀ (s : State) (rest : List HostAction) (id : BufId) (k : Nat) (v : Byte),
    s.host.pending = .writeByte id k v :: rest → k < s.bufLen[id] →
      ∃ t, step s = .next t ∧ t = { s.setPending rest with buf := t.buf } ∧ t.byteAt (.buffer id) k = v ∧
        ∀ (id' : BufId) (j : Nat), ¬ (id' = id ∧ j = k) → t.byteAt (.buffer id') j = s.byteAt (.buffer id') j) ∧
  (∀ (s : State) (rest : List HostAction) (id : BufId) (bytes : List Byte),
    s.host.pending = .loadBuffer id bytes :: rest → bytes.length ≤ s.bufLen[id] →
      ∃ t, step s = .next t ∧ t = { s.setPending rest with buf := t.buf } ∧
        (∀ j (h : j < bytes.length), t.byteAt (.buffer id) j = bytes[j]) ∧
        ∀ (id' : BufId) (j : Nat), ¬ (id' = id ∧ j < bytes.length) →
          t.byteAt (.buffer id') j = s.byteAt (.buffer id') j) ∧
  (∀ (s : State) (rest : List HostAction) (id : BufId) (k : Nat),
    s.host.pending = .read (.bufByte id k) :: rest → k < s.bufLen[id] →
      step s = .next { s with host :=
        ⟨rest, ⟨.bufByte id k, (s.byteAt (.buffer id) k).setWidth 128⟩ :: s.host.replies⟩ })

/-- Derived from rules R61, R62 and R94 (U1, U10): the only steps that give no next state are an in-bounds overlapping COPY on
a READY core and a host access beyond a buffer's length; that a load of a longer list than the buffer is one is assumption 10. -/
def Obligations.StepStopsOnlyThere : Prop :=
  ∀ (s : State) (r : Refusal), step s = .refused r ↔
    (r = .hostAccessOutsideBuffer ∧ ∃ a rest, s.host.pending = a :: rest ∧ hostActionOutside a s = true) ∨
    (r = .overlappingCopy ∧ s.stateBit = 0 ∧ ∃ cmd rest src dst so d n, s.host.pending = .issue cmd :: rest ∧
      decode cmd = .ok (.copy src dst so d n) ∧ copyInBounds src dst so.toNat d.toNat n.toNat s ∧
      rangesOverlap src dst so.toNat d.toNat n.toNat)

/-! ## Reset and the invariant (70_reset_and_hazards.md, 10_state.md) -/

/-- Rule R96: reset, in every state and whatever lengths the host fixes with it, makes every register 0 and leaves everything else
but the lengths and contents of the buffers it fixes a length for; without one it leaves all else; and it is the only way out of
FAULTED. That the lengths stand in the reset item is the model's choice (assumption 3); what they do is in ResetFixesLengths. -/
def Obligations.ResetEffect : Prop :=
  (∀ (s : State) (l : List (BufId × Nat)) (rest : List HostAction), s.host.pending = .reset l :: rest →
    ∃ t, step s = .next t ∧
      t = { s.setPending rest with
        stateBit := 0, cause := 0, fcmd := 0, mr := 0, acc := Vector.replicate 8 0, bufLen := t.bufLen, buf := t.buf } ∧
      ∀ id : BufId, (∀ n, (id, n) ∉ l) → t.bufLen[id] = s.bufLen[id] ∧ t.buf[id] = s.buf[id]) ∧
  (∀ (s : State) (rest : List HostAction), s.host.pending = .reset [] :: rest →
    step s = .next { s.setPending rest with
      stateBit := 0, cause := 0, fcmd := 0, mr := 0, acc := Vector.replicate 8 0 }) ∧
  (∀ s t : State, step s = .next t → s.stateBit = 1 → t.stateBit = 0 →
    ∃ l rest, s.host.pending = .reset l :: rest)

/-- Derived from rules R5, R24, R26, R94 and R97; that lengths are fixed within the reset item, that the last length named for a
buffer wins, and that only the lengths at release count are the model's choices (assumptions 3, 17). A reset that fixes any lengths
gives each buffer the last one named for it, or leaves its length; keeps every byte below the buffer's new length, and every byte
of a buffer it does not name; a buffer it names holds no byte at its new length or beyond. -/
def Obligations.ResetFixesLengths : Prop :=
  ∀ (s : State) (l : List (BufId × Nat)) (rest : List HostAction), s.host.pending = .reset l :: rest →
    ∃ t, step s = .next t ∧ t.stateBit = 0 ∧ t.cause = 0 ∧ t.fcmd = 0 ∧ t.mr = 0 ∧ t.acc = Vector.replicate 8 0 ∧
      ∀ id : BufId, t.bufLen[id] = lastLength l id s.bufLen[id] ∧
        (∀ k, (k < t.bufLen[id] ∨ ∀ n, (id, n) ∉ l) → t.byteAt (.buffer id) k = s.byteAt (.buffer id) k) ∧
        ((∃ n, (id, n) ∈ l) → ∀ k, t.bufLen[id] ≤ k → t.buf[id].lookup k = none)

/-- The invariant holds after reset, whatever lengths and program the host chose, and at `State.reset` (whose lengths, all 0,
are the model's choice, assumption 3); the registers there are those of rule R24. -/
def Obligations.ResetMeetsInvariant : Prop :=
  (∀ (lens : Vector Nat 16) (program : List HostAction), (State.resetWith lens program).Inv) ∧ State.reset.Inv ∧
  (State.reset.stateBit = 0 ∧ State.reset.cause = 0 ∧ State.reset.fcmd = 0 ∧ State.reset.mr = 0 ∧
    State.reset.acc = Vector.replicate 8 0)

/-- Derived from rules R17, R18, R19, R26, R60 and R86: every step keeps `STATE`, `CAUSE` and `FCMD` in agreement (so `CAUSE` = 0
exactly when READY, and codes 5 to 15 never appear), every buffer's memory canonical, and every byte below its buffer's
length. -/
def Obligations.StepKeepsInvariant : Prop :=
  ∀ s t : State, s.Inv → step s = .next t → t.Inv
end

