-- ==== Sys2Proof/Laws/State.lean ====
section
/-! SUPPORT. What each named update of State does to each field: one lemma per field per update, so that no later proof
unfolds a record update. -/

namespace Sys2Proof.Machine

variable (s : State)

/-! ## raiseFault -/

@[simp] theorem raiseFault_acc (c cmd) : (s.raiseFault c cmd).acc = s.acc := rfl
@[simp] theorem raiseFault_mr (c cmd) : (s.raiseFault c cmd).mr = s.mr := rfl
@[simp] theorem raiseFault_stateBit (c cmd) : (s.raiseFault c cmd).stateBit = 1 := rfl
@[simp] theorem raiseFault_cause (c cmd) : (s.raiseFault c cmd).cause = c.code := rfl
@[simp] theorem raiseFault_fcmd (c cmd) : (s.raiseFault c cmd).fcmd = cmd := rfl
@[simp] theorem raiseFault_bufLen (c cmd) : (s.raiseFault c cmd).bufLen = s.bufLen := rfl
@[simp] theorem raiseFault_buf (c cmd) : (s.raiseFault c cmd).buf = s.buf := rfl
@[simp] theorem raiseFault_host (c cmd) : (s.raiseFault c cmd).host = s.host := rfl
@[simp] theorem raiseFault_byteAt (c cmd q k) : (s.raiseFault c cmd).byteAt q k = s.byteAt q k := by cases q <;> rfl

/-! ## resetCore -/

@[simp] theorem resetCore_acc : s.resetCore.acc = Vector.replicate 8 0 := rfl
@[simp] theorem resetCore_mr : s.resetCore.mr = 0 := rfl
@[simp] theorem resetCore_stateBit : s.resetCore.stateBit = 0 := rfl
@[simp] theorem resetCore_cause : s.resetCore.cause = 0 := rfl
@[simp] theorem resetCore_fcmd : s.resetCore.fcmd = 0 := rfl
@[simp] theorem resetCore_bufLen : s.resetCore.bufLen = s.bufLen := rfl
@[simp] theorem resetCore_buf : s.resetCore.buf = s.buf := rfl
@[simp] theorem resetCore_host : s.resetCore.host = s.host := rfl

/-! ## clearAcc -/

@[simp] theorem clearAcc_acc : s.clearAcc.acc = Vector.replicate 8 0 := rfl
@[simp] theorem clearAcc_mr : s.clearAcc.mr = s.mr := rfl
@[simp] theorem clearAcc_stateBit : s.clearAcc.stateBit = s.stateBit := rfl
@[simp] theorem clearAcc_cause : s.clearAcc.cause = s.cause := rfl
@[simp] theorem clearAcc_fcmd : s.clearAcc.fcmd = s.fcmd := rfl
@[simp] theorem clearAcc_bufLen : s.clearAcc.bufLen = s.bufLen := rfl
@[simp] theorem clearAcc_buf : s.clearAcc.buf = s.buf := rfl
@[simp] theorem clearAcc_host : s.clearAcc.host = s.host := rfl
@[simp] theorem clearAcc_byteAt_buffer (id k) : s.clearAcc.byteAt (.buffer id) k = s.byteAt (.buffer id) k := rfl

/-! ## setPending and reply -/

@[simp] theorem setPending_acc (r) : (s.setPending r).acc = s.acc := rfl
@[simp] theorem setPending_mr (r) : (s.setPending r).mr = s.mr := rfl
@[simp] theorem setPending_stateBit (r) : (s.setPending r).stateBit = s.stateBit := rfl
@[simp] theorem setPending_cause (r) : (s.setPending r).cause = s.cause := rfl
@[simp] theorem setPending_fcmd (r) : (s.setPending r).fcmd = s.fcmd := rfl
@[simp] theorem setPending_bufLen (r) : (s.setPending r).bufLen = s.bufLen := rfl
@[simp] theorem setPending_buf (r) : (s.setPending r).buf = s.buf := rfl
@[simp] theorem setPending_pending (r) : (s.setPending r).host.pending = r := rfl
@[simp] theorem setPending_replies (r) : (s.setPending r).host.replies = s.host.replies := rfl
@[simp] theorem setPending_byteAt (r q k) : (s.setPending r).byteAt q k = s.byteAt q k := by cases q <;> rfl

@[simp] theorem reply_acc (r) : (s.reply r).acc = s.acc := rfl
@[simp] theorem reply_mr (r) : (s.reply r).mr = s.mr := rfl
@[simp] theorem reply_stateBit (r) : (s.reply r).stateBit = s.stateBit := rfl
@[simp] theorem reply_cause (r) : (s.reply r).cause = s.cause := rfl
@[simp] theorem reply_fcmd (r) : (s.reply r).fcmd = s.fcmd := rfl
@[simp] theorem reply_bufLen (r) : (s.reply r).bufLen = s.bufLen := rfl
@[simp] theorem reply_buf (r) : (s.reply r).buf = s.buf := rfl
@[simp] theorem reply_pending (r) : (s.reply r).host.pending = s.host.pending := rfl
@[simp] theorem reply_replies (r) : (s.reply r).host.replies = r :: s.host.replies := rfl
@[simp] theorem reply_byteAt (r q k) : (s.reply r).byteAt q k = s.byteAt q k := by cases q <;> rfl

/-! ## setByte -/

@[simp] theorem setByte_acc_buffer (id k v) : (s.setByte (.buffer id) k v).acc = s.acc := rfl
@[simp] theorem setByte_acc_acc (k v) : (s.setByte .acc k v).acc = s.acc.setIfInBounds k v := rfl
@[simp] theorem setByte_mr (q k v) : (s.setByte q k v).mr = s.mr := by cases q <;> rfl
@[simp] theorem setByte_stateBit (q k v) : (s.setByte q k v).stateBit = s.stateBit := by cases q <;> rfl
@[simp] theorem setByte_cause (q k v) : (s.setByte q k v).cause = s.cause := by cases q <;> rfl
@[simp] theorem setByte_fcmd (q k v) : (s.setByte q k v).fcmd = s.fcmd := by cases q <;> rfl
@[simp] theorem setByte_bufLen (q k v) : (s.setByte q k v).bufLen = s.bufLen := by cases q <;> rfl
@[simp] theorem setByte_buf_acc (k v) : (s.setByte .acc k v).buf = s.buf := rfl
@[simp] theorem setByte_buf_buffer (id : BufId) (k v) :
    (s.setByte (.buffer id) k v).buf = s.buf.set id (s.buf[id].write k v) := rfl
@[simp] theorem setByte_host (q k v) : (s.setByte q k v).host = s.host := by cases q <;> rfl

/-! ## setLengths, dropBeyond and fixLengths -/
@[simp] theorem setLengths_nil (lens) : setLengths lens [] = lens := rfl
@[simp] theorem setLengths_cons (lens) (id : BufId) (n more) :
    setLengths lens ((id, n) :: more) = setLengths (lens.set id n) more := rfl

@[simp] theorem dropBeyond_acc (id) : (s.dropBeyond id).acc = s.acc := rfl
@[simp] theorem dropBeyond_mr (id) : (s.dropBeyond id).mr = s.mr := rfl
@[simp] theorem dropBeyond_stateBit (id) : (s.dropBeyond id).stateBit = s.stateBit := rfl
@[simp] theorem dropBeyond_cause (id) : (s.dropBeyond id).cause = s.cause := rfl
@[simp] theorem dropBeyond_fcmd (id) : (s.dropBeyond id).fcmd = s.fcmd := rfl
@[simp] theorem dropBeyond_bufLen (id) : (s.dropBeyond id).bufLen = s.bufLen := rfl
@[simp] theorem dropBeyond_buf (id : BufId) :
    (s.dropBeyond id).buf = s.buf.set id (s.buf[id].truncate s.bufLen[id]) := rfl
@[simp] theorem dropBeyond_host (id) : (s.dropBeyond id).host = s.host := rfl

/-- Only buffer contents can change. -/
theorem dropNamedBeyond_eq (l) : s.dropNamedBeyond l = { s with buf := (s.dropNamedBeyond l).buf } := by
  induction l generalizing s with
  | nil => rfl
  | cons c l ih => rw [State.dropNamedBeyond, ih]; rfl

/-- Only lengths and buffer contents can change. -/
theorem fixLengths_eq (l) :
    s.fixLengths l = { s with bufLen := setLengths s.bufLen l, buf := (s.fixLengths l).buf } := by
  rw [State.fixLengths, dropNamedBeyond_eq]

@[simp] theorem fixLengths_nil : s.fixLengths [] = s := rfl
@[simp] theorem fixLengths_acc (l) : (s.fixLengths l).acc = s.acc := by rw [fixLengths_eq]
@[simp] theorem fixLengths_mr (l) : (s.fixLengths l).mr = s.mr := by rw [fixLengths_eq]
@[simp] theorem fixLengths_stateBit (l) : (s.fixLengths l).stateBit = s.stateBit := by rw [fixLengths_eq]
@[simp] theorem fixLengths_cause (l) : (s.fixLengths l).cause = s.cause := by rw [fixLengths_eq]
@[simp] theorem fixLengths_fcmd (l) : (s.fixLengths l).fcmd = s.fcmd := by rw [fixLengths_eq]
@[simp] theorem fixLengths_bufLen (l) : (s.fixLengths l).bufLen = setLengths s.bufLen l := by rw [fixLengths_eq]
@[simp] theorem fixLengths_host (l) : (s.fixLengths l).host = s.host := by rw [fixLengths_eq]

/-! ## storeBytes -/

theorem storeBytes_fields (id k bytes) :
    (storeBytes id k bytes s).acc = s.acc ∧ (storeBytes id k bytes s).mr = s.mr ∧
    (storeBytes id k bytes s).stateBit = s.stateBit ∧ (storeBytes id k bytes s).cause = s.cause ∧
    (storeBytes id k bytes s).fcmd = s.fcmd ∧ (storeBytes id k bytes s).bufLen = s.bufLen ∧
    (storeBytes id k bytes s).host = s.host := by
  induction bytes generalizing s k with
  | nil => simp [storeBytes]
  | cons v more ih => simpa [storeBytes] using ih (s.setByte (.buffer id) k v) (k + 1)

/-- Two states with the same fields are the same state. -/
theorem State.ext_fields {s t : State} (h1 : s.acc = t.acc) (h2 : s.mr = t.mr) (h3 : s.stateBit = t.stateBit)
    (h4 : s.cause = t.cause) (h5 : s.fcmd = t.fcmd) (h6 : s.bufLen = t.bufLen) (h7 : s.buf = t.buf)
    (h8 : s.host = t.host) : s = t := by
  cases s; cases t; simp_all

end Sys2Proof.Machine
end

