-- ==== Sys2Proof/Laws/Memory.lean ====
section
/-! SUPPORT. One buffer's memory: read after write, and that every operation keeps the canonical form and the bound; then the
same for the bytes of a place. -/

namespace Sys2Proof.Machine

/-! ## Memory -/

@[simp] theorem Memory.lookup_write (m : Memory) (k : Nat) (v : Byte) (j : Nat) :
    (m.write k v).lookup j = if j = k then some v else m.lookup j := by
  induction m with
  | nil => simp [Memory.write, Memory.lookup, eq_comm]
  | cons c m ih =>
    obtain ⟨a, b⟩ := c
    simp only [Memory.write]
    split
    · simp only [Memory.lookup]
      by_cases hj : j = k
      · simp [hj]
      · simp [hj, Ne.symm hj]
    · split
      · subst_vars
        simp only [Memory.lookup]
        by_cases hj : j = a
        · simp [hj]
        · simp [hj, Ne.symm hj]
      · simp only [Memory.lookup, ih]
        by_cases ha : a = j
        · subst ha
          rename_i hka
          have hak : a ≠ k := fun h => hka h.symm
          simp [hak]
        · simp [ha]

/-- The indices after a write are the indices before it and the one written. -/
theorem Memory.mem_write {m : Memory} {k : Nat} {v : Byte} {c : Host.Cell} (h : c ∈ m.write k v) :
    c.1 = k ∨ c ∈ m := by
  induction m with
  | nil => simp [Memory.write] at h; simp [h]
  | cons d m ih =>
    obtain ⟨a, b⟩ := d
    simp only [Memory.write] at h
    split at h
    · simp only [List.mem_cons] at h ⊢
      rcases h with h | h
      · simp [h]
      · exact .inr h
    · split at h
      · simp at h ⊢; rcases h with h | h <;> simp [h]
      · simp only [List.mem_cons] at h ⊢
        rcases h with h | h
        · exact .inr (.inl h)
        · rcases ih h with h | h
          · exact .inl h
          · exact .inr (.inr h)

theorem Memory.write_wf {m : Memory} (h : m.wf) (k : Nat) (v : Byte) : (m.write k v).wf := by
  induction m with
  | nil => simp [Memory.write, Memory.wf]
  | cons c m ih =>
    obtain ⟨a, b⟩ := c
    simp only [Memory.wf, List.map_cons, List.pairwise_cons, List.mem_map, forall_exists_index, and_imp,
      forall_apply_eq_imp_iff₂] at h ih ⊢
    obtain ⟨hlt, hm⟩ := h
    simp only [Memory.write]
    split
    · rename_i hk
      simp only [List.map_cons, List.pairwise_cons, List.mem_cons, List.mem_map, forall_eq_or_imp,
        forall_exists_index, and_imp, forall_apply_eq_imp_iff₂]
      exact ⟨⟨hk, fun c hc => lt_trans hk (hlt c hc)⟩, hlt, hm⟩
    · split
      · rename_i hk
        subst hk
        simpa using ⟨fun a b hc => hlt (a, b) hc, hm⟩
      · simp only [List.map_cons, List.pairwise_cons, List.mem_map, forall_exists_index, and_imp,
          forall_apply_eq_imp_iff₂]
        refine ⟨fun c hc => ?_, ih hm⟩
        rcases Memory.mem_write hc with h | h
        · omega
        · exact hlt c h

theorem Memory.write_within {m : Memory} {len k : Nat} (h : m.within len) (hk : k < len) (v : Byte) :
    (m.write k v).within len := by
  intro c hc
  rcases Memory.mem_write hc with h' | h'
  · omega
  · exact h c h'

theorem Memory.truncate_wf {m : Memory} (h : m.wf) (len : Nat) : (m.truncate len).wf :=
  List.Pairwise.sublist (List.Sublist.map _ List.filter_sublist) h

theorem Memory.truncate_within (m : Memory) (len : Nat) : (m.truncate len).within len := by
  intro c hc
  simpa [Memory.truncate] using (List.mem_filter.mp hc).2

theorem Memory.lookup_truncate (m : Memory) (len j : Nat) :
    (m.truncate len).lookup j = if j < len then m.lookup j else none := by
  induction m with
  | nil => simp [Memory.truncate, Memory.lookup]
  | cons c m ih =>
    obtain ⟨a, b⟩ := c
    simp only [Memory.truncate, List.filter_cons] at ih ⊢
    by_cases ha : a < len
    · simp only [ha, decide_true, if_true, Memory.lookup, ih]
      by_cases hj : a = j
      · subst hj; simp [ha]
      · simp [hj]
    · simp only [ha, decide_false, if_false, Memory.lookup, ih, Bool.false_eq_true]
      by_cases hj : a = j
      · subst hj; simp [ha]
      · simp [hj]

/-! ## Bytes of a place -/

/-- Read after write on places. `ACC` has eight bytes, so the index written must be one of them there. -/
theorem byteAt_setByte (s : State) (q : Place) (k : Nat) (v : Byte) (hk : q = .acc → k < 8) (q' : Place) (j : Nat) :
    (s.setByte q k v).byteAt q' j = if q' = q ∧ j = k then v else s.byteAt q' j := by
  cases q with
  | buffer id =>
    cases q' with
    | acc => simp [State.byteAt]
    | buffer id' =>
      simp only [State.byteAt, setByte_buf_buffer, Place.buffer.injEq]
      by_cases hid : id' = id
      · subst hid
        by_cases hj : j = k
        · simp [hj]
        · simp [hj]
      · have hne : id.val ≠ id'.val := fun h => hid (Fin.ext h.symm)
        simp [hid, hne]
  | acc =>
    have hk8 : k < 8 := hk rfl
    cases q' with
    | buffer id' => simp [State.byteAt]
    | acc =>
      simp only [State.byteAt, setByte_acc_acc, true_and]
      by_cases hj : j = k
      · subst hj; simp [hk8]
      · rw [if_neg hj]
        congr 1
        simp [Ne.symm hj]

theorem setByte_buffersWf {s : State} (h : ∀ id : BufId, s.buf[id].wf ∧ s.buf[id].within s.bufLen[id])
    (q : Place) (k : Nat) (v : Byte) (hk : k < s.placeLen q) :
    ∀ id : BufId, (s.setByte q k v).buf[id].wf ∧ (s.setByte q k v).buf[id].within (s.setByte q k v).bufLen[id] := by
  intro id
  cases q with
  | acc => simpa using h id
  | buffer id' =>
    by_cases hid : id = id'
    · subst hid
      simpa using And.intro (Memory.write_wf (h id).1 k v) fun a b => Memory.write_within (h id).2 hk v (a, b)
    · have hne : id'.val ≠ id.val := fun e => hid (Fin.ext e.symm)
      simpa [hne] using h id

theorem Memory.truncate_truncate (m : Memory) (n : Nat) : (m.truncate n).truncate n = m.truncate n := by
  simp [Memory.truncate]

theorem dropNamedBeyond_buf (s : State) (l : List (BufId × Nat)) (id : BufId) :
    (s.dropNamedBeyond l).buf[id] =
      if id ∈ l.map Prod.fst then s.buf[id].truncate s.bufLen[id] else s.buf[id] := by
  induction l generalizing s with
  | nil => simp [State.dropNamedBeyond]
  | cons c l ih =>
    rw [State.dropNamedBeyond, ih, dropBeyond_bufLen, dropBeyond_buf]
    by_cases hid : id = c.1
    · subst hid
      simp [Memory.truncate_truncate]
    · have hne : c.1.val ≠ id.val := fun e => hid (Fin.ext e.symm)
      simp only [List.map_cons, List.mem_cons, hid, false_or]
      simp [hne]

/-- What fixing lengths leaves in a buffer: one it does not name as it was, one it names without the bytes at its new length and
beyond. -/
theorem fixLengths_buf (s : State) (l : List (BufId × Nat)) (id : BufId) :
    (s.fixLengths l).buf[id] =
      if id ∈ l.map Prod.fst then s.buf[id].truncate (setLengths s.bufLen l)[id] else s.buf[id] := by
  rw [State.fixLengths, dropNamedBeyond_buf]

theorem setLengths_of_not_named (lens : Vector Nat 16) (l : List (BufId × Nat)) (id : BufId) (h : id ∉ l.map Prod.fst) :
    (setLengths lens l)[id] = lens[id] := by
  induction l generalizing lens with
  | nil => rfl
  | cons c l ih =>
    simp only [List.map_cons, List.mem_cons, not_or] at h
    have hne : c.1.val ≠ id.val := fun e => h.1 (Fin.ext e.symm)
    rw [setLengths, ih _ h.2]
    simp [hne]

theorem fixLengths_buffersWf {s : State} (h : ∀ id : BufId, s.buf[id].wf ∧ s.buf[id].within s.bufLen[id])
    (l : List (BufId × Nat)) :
    ∀ id : BufId, (s.fixLengths l).buf[id].wf ∧ (s.fixLengths l).buf[id].within (s.fixLengths l).bufLen[id] := by
  intro id
  rw [fixLengths_buf, fixLengths_bufLen]
  split
  · exact ⟨Memory.truncate_wf (h id).1 _, fun c => Memory.truncate_within s.buf[id] _ c⟩
  · rename_i hn
    rw [setLengths_of_not_named _ _ _ hn]
    exact h id

/-- Bytes a load writes, and every other byte of every place as before. -/
theorem byteAt_storeBytes (s : State) (id : BufId) (k : Nat) (bytes : List Byte) (q : Place) (j : Nat) :
    (storeBytes id k bytes s).byteAt q j =
      if q = .buffer id ∧ k ≤ j then bytes[j - k]?.getD (s.byteAt q j) else s.byteAt q j := by
  induction bytes generalizing s k with
  | nil => simp [storeBytes]
  | cons v more ih =>
    simp only [storeBytes, ih, byteAt_setByte s (.buffer id) k v (by simp)]
    by_cases hq : q = .buffer id
    · subst hq
      rcases lt_trichotomy j k with h | h | h
      · simp [show ¬ k + 1 ≤ j by omega, show ¬ k ≤ j by omega, show j ≠ k by omega]
      · subst h; simp
      · obtain ⟨i, rfl⟩ : ∃ i, j = k + 1 + i := ⟨j - (k + 1), by omega⟩
        simp [show k + 1 + i - k = i + 1 by omega, show ¬ k + 1 + i = k by omega, show k ≤ k + 1 + i by omega]
    · simp [hq]

theorem storeBytes_buffersWf {s : State} (h : ∀ id : BufId, s.buf[id].wf ∧ s.buf[id].within s.bufLen[id])
    (id' : BufId) (k : Nat) (bytes : List Byte) (hk : k + bytes.length ≤ s.bufLen[id']) :
    ∀ id : BufId, (storeBytes id' k bytes s).buf[id].wf ∧
      (storeBytes id' k bytes s).buf[id].within (storeBytes id' k bytes s).bufLen[id] := by
  induction bytes generalizing s k with
  | nil => exact h
  | cons v more ih =>
    simp only [List.length_cons] at hk
    exact ih (setByte_buffersWf h (.buffer id') k v (by simp only [State.placeLen]; omega)) (k + 1)
      (by simp only [setByte_bufLen]; omega)

end Sys2Proof.Machine
end

