-- ==== Sys2Proof/Laws/Bits.lean ====
section
/-! SUPPORT. Bits of a byte in MSB-first numbering: masks (rules R48, R52), the shift of one chunk (rule R56), and bytes
determined by their bits. -/

namespace Sys2Proof.Machine

theorem msb_eq_false {b : Byte} {i : Nat} (h : 8 ≤ i) : msb b i = false := by
  simp [msb, BitVec.getMsbD, show ¬ i < 8 by omega]

/-- `msb(b, i) = (b >> (7 - i)) mod 2`, the formula of rule R7. -/
theorem msb_eq_div (b : Byte) {i : Nat} (h : i < 8) : msb b i = decide (b.toNat / 2 ^ (7 - i) % 2 = 1) := by
  simp [msb, BitVec.getMsbD, h, BitVec.getLsbD, Nat.testBit_eq_decide_div_mod_eq]

/-- Bytes with the same bits are the same byte. -/
theorem byte_ext {a b : Byte} (h : ∀ i, i < 8 → msb a i = msb b i) : a = b := by
  apply BitVec.eq_of_getMsbD_eq
  intro i hi
  exact h i hi

/-- `Mask` on its domain, bit by bit (rule R48's first form). -/
theorem msb_mask {start count : Nat} (hs : start < 8) (hc : start + count ≤ 8) {i : Nat} (hi : i < 8) :
    msb (mask start count) i = decide (start ≤ i ∧ i < start + count) := by
  have key : ∀ s : Fin 8, ∀ c : Fin 9, s.val + c.val ≤ 8 → ∀ i : Fin 8,
      (BitVec.ofNat 8 ((2 ^ c.val - 1) * 2 ^ (8 - s.val - c.val))).getMsbD i.val
        = decide (s.val ≤ i.val ∧ i.val < s.val + c.val) := by decide
  simpa [msb, mask, hs, hc] using key ⟨start, hs⟩ ⟨count, by omega⟩ hc ⟨i, hi⟩

@[simp] theorem msb_and (a b : Byte) (i : Nat) : msb (a &&& b) i = (msb a i && msb b i) := by simp [msb]

@[simp] theorem msb_or (a b : Byte) (i : Nat) : msb (a ||| b) i = (msb a i || msb b i) := by simp [msb]

theorem msb_not (a : Byte) {i : Nat} (h : i < 8) : msb (~~~ a) i = !msb a i := by simp [msb, h]

/-- Step e of rule R53 moves the bit at index `i + sb - db` to index `i`; what would come from outside the byte is 0. -/
theorem msb_reposition (b : Byte) (sb db : Nat) {i : Nat} (hi : i < 8) :
    msb (reposition b sb db) i = (decide (db ≤ i + sb) && msb b (i + sb - db)) := by
  unfold reposition
  by_cases h : sb < db
  · have ho : (0 : Int) < (db : Int) - sb := by omega
    have ht : ((db : Int) - sb).toNat = db - sb := by omega
    simp only [ho, if_true, ht, msb, BitVec.getMsbD_ushiftRight]
    by_cases h2 : i < db - sb
    · simp [h2, show ¬ db ≤ i + sb by omega]
    · simp [h2, hi, show db ≤ i + sb by omega, show i + sb - db = i - (db - sb) by omega]
  · have ho : ¬ (0 : Int) < (db : Int) - sb := by omega
    have ht : (0 - ((db : Int) - sb)).toNat = sb - db := by omega
    simp only [ho, if_false, ht, msb, BitVec.getMsbD_shiftLeft]
    simp [show db ≤ i + sb by omega, show i + sb - db = i + (sb - db) by omega]

/-- One chunk of rule R53 on bytes: the chunk's bits come from the source byte, the others stay (rules R52, R56). -/
theorem msb_mergeChunk (old src : Byte) {sb db c : Nat} (hs : sb < 8) (hd : db < 8) (hsc : sb + c ≤ 8) (hdc : db + c ≤ 8)
    {i : Nat} (hi : i < 8) :
    msb ((old &&& ~~~ mask db c) ||| reposition (src &&& mask sb c) sb db) i =
      if db ≤ i ∧ i < db + c then msb src (i + sb - db) else msb old i := by
  rw [msb_or, msb_and, msb_not _ hi, msb_mask hd hdc hi, msb_reposition _ _ _ hi, msb_and]
  by_cases h1 : db ≤ i + sb
  · by_cases h2 : i + sb - db < 8
    · rw [msb_mask hs hsc h2]
      by_cases h3 : db ≤ i ∧ i < db + c
      · simp [h3, h1, show sb ≤ i + sb - db by omega, show i + sb - db < sb + c by omega]
      · have : ¬ (sb ≤ i + sb - db ∧ i + sb - db < sb + c) := by omega
        simp [h3, this]
    · rw [msb_eq_false (show 8 ≤ i + sb - db by omega)]
      simp [show ¬ (db ≤ i ∧ i < db + c) by omega]
  · simp [h1, show ¬ (db ≤ i ∧ i < db + c) by omega]

/-! ## Bits of a place -/

theorem bitAt_eq (s : State) (q : Place) (k i : Nat) (hi : i < 8) : s.bitAt q (8 * k + i) = msb (s.byteAt q k) i := by
  simp [State.bitAt, show (8 * k + i) / 8 = k by omega, show (8 * k + i) % 8 = i by omega]

/-- A byte of a place is determined by the eight bits of it. -/
theorem byteAt_eq_of_bits {s t : State} {q q' : Place} {k k' : Nat}
    (h : ∀ i, i < 8 → s.bitAt q (8 * k + i) = t.bitAt q' (8 * k' + i)) : s.byteAt q k = t.byteAt q' k' := by
  apply byte_ext
  intro i hi
  have := h i hi
  rwa [bitAt_eq _ _ _ _ hi, bitAt_eq _ _ _ _ hi] at this

theorem bitAt_congr {s t : State} {q : Place} {p : Nat} (h : s.byteAt q (p / 8) = t.byteAt q (p / 8)) :
    s.bitAt q p = t.bitAt q p := by
  simp [State.bitAt, h]

theorem byteAt_acc (s : State) {k : Nat} (h : k < 8) : s.byteAt .acc k = s.acc[k] := by
  simp [State.byteAt, h]

/-- The accessor file is determined by its 64 bits. -/
theorem acc_ext {s t : State} (h : ∀ q, q < 64 → s.bitAt .acc q = t.bitAt .acc q) : s.acc = t.acc := by
  apply Vector.ext
  intro k hk
  rw [← byteAt_acc s hk, ← byteAt_acc t hk]
  exact byteAt_eq_of_bits fun i hi => h _ (by omega)

theorem byteAt_clearAcc (s : State) {k : Nat} (h : k < 8) : s.clearAcc.byteAt .acc k = 0 := by
  rw [byteAt_acc _ h]; simp

theorem bitAt_clearAcc (s : State) {q : Nat} (h : q < 64) : s.clearAcc.bitAt .acc q = false := by
  rw [State.bitAt, byteAt_clearAcc s (by omega)]; simp [msb]

end Sys2Proof.Machine
end

