-- ==== Sys2Proof/Laws/Copy.lean ====
section
/-! SUPPORT. What `CopyBits` does (rules R54 to R60): the specification lemma of the shared copy operation, and its frame. -/

namespace Sys2Proof.Machine

/-! ## Chunks (rule R54) -/

theorem chunkSize_le (s d r : Nat) : chunkSize s d r ≤ r := by simp [chunkSize]

theorem chunkSize_pos {s d r : Nat} (h : 0 < r) : 0 < chunkSize s d r := by
  simp only [chunkSize]; omega

theorem chunkSize_src (s d r : Nat) : s % 8 + chunkSize s d r ≤ 8 := by
  simp only [chunkSize]; omega

theorem chunkSize_dst (s d r : Nat) : d % 8 + chunkSize s d r ≤ 8 := by
  simp only [chunkSize]; omega

/-! ## Fields a copy leaves alone -/

theorem copyChunk_fields (src dst : Place) (s d c : Nat) (st : State) :
    (copyChunk src dst s d c st).mr = st.mr ∧ (copyChunk src dst s d c st).stateBit = st.stateBit ∧
    (copyChunk src dst s d c st).cause = st.cause ∧ (copyChunk src dst s d c st).fcmd = st.fcmd ∧
    (copyChunk src dst s d c st).bufLen = st.bufLen ∧ (copyChunk src dst s d c st).host = st.host := by
  simp [copyChunk]

theorem copyLoop_fields (f : Nat) (src dst : Place) (s d r : Nat) (st : State) :
    (copyLoop f src dst s d r st).mr = st.mr ∧ (copyLoop f src dst s d r st).stateBit = st.stateBit ∧
    (copyLoop f src dst s d r st).cause = st.cause ∧ (copyLoop f src dst s d r st).fcmd = st.fcmd ∧
    (copyLoop f src dst s d r st).bufLen = st.bufLen ∧ (copyLoop f src dst s d r st).host = st.host := by
  induction f generalizing s d r st with
  | zero => simp [copyLoop]
  | succ f ih =>
    simp only [copyLoop]
    split
    · simp
    · have h := ih (s + chunkSize s d r) (d + chunkSize s d r) (r - chunkSize s d r)
        (copyChunk src dst s d (chunkSize s d r) st)
      have h' := copyChunk_fields src dst s d (chunkSize s d r) st
      simp_all

@[simp] theorem copyBits_mr (src dst s d n st) : (copyBits src dst s d n st).mr = st.mr :=
  (copyLoop_fields n src dst s d n st).1
@[simp] theorem copyBits_stateBit (src dst s d n st) : (copyBits src dst s d n st).stateBit = st.stateBit :=
  (copyLoop_fields n src dst s d n st).2.1
@[simp] theorem copyBits_cause (src dst s d n st) : (copyBits src dst s d n st).cause = st.cause :=
  (copyLoop_fields n src dst s d n st).2.2.1
@[simp] theorem copyBits_fcmd (src dst s d n st) : (copyBits src dst s d n st).fcmd = st.fcmd :=
  (copyLoop_fields n src dst s d n st).2.2.2.1
@[simp] theorem copyBits_bufLen (src dst s d n st) : (copyBits src dst s d n st).bufLen = st.bufLen :=
  (copyLoop_fields n src dst s d n st).2.2.2.2.1
@[simp] theorem copyBits_host (src dst s d n st) : (copyBits src dst s d n st).host = st.host :=
  (copyLoop_fields n src dst s d n st).2.2.2.2.2

/-- A copy into a buffer writes no accessor byte. -/
@[simp] theorem copyBits_acc (src : Place) (id : BufId) (s d n : Nat) (st : State) :
    (copyBits src (.buffer id) s d n st).acc = st.acc := by
  suffices h : ∀ f s d r st, (copyLoop f src (.buffer id) s d r st).acc = st.acc from h n s d n st
  intro f
  induction f with
  | zero => intros; rfl
  | succ f ih =>
    intro s d r st
    simp only [copyLoop]
    split
    · rfl
    · rw [ih]; simp [copyChunk]

/-- A copy into `ACC` writes no buffer byte. -/
@[simp] theorem copyBits_buf (src : Place) (s d n : Nat) (st : State) :
    (copyBits src .acc s d n st).buf = st.buf := by
  suffices h : ∀ f s d r st, (copyLoop f src .acc s d r st).buf = st.buf from h n s d n st
  intro f
  induction f with
  | zero => intros; rfl
  | succ f ih =>
    intro s d r st
    simp only [copyLoop]
    split
    · rfl
    · rw [ih]; simp [copyChunk]

/-- A copy into one buffer leaves the memory of every other one alone. -/
theorem copyBits_buf_ne (src : Place) {id id' : BufId} (h : id' ≠ id) (s d n : Nat) (st : State) :
    (copyBits src (.buffer id) s d n st).buf[id'] = st.buf[id'] := by
  have hv : id.val ≠ id'.val := fun e => h (Fin.ext e.symm)
  suffices h : ∀ f s d r st, (copyLoop f src (.buffer id) s d r st).buf[id'] = st.buf[id'] from h n s d n st
  intro f
  induction f with
  | zero => intros; rfl
  | succ f ih =>
    intro s d r st
    simp only [copyLoop]
    split
    · rfl
    · rw [ih]; simp [copyChunk, hv]

/-- Rule R59. -/
@[simp] theorem copyBits_zero (src dst : Place) (s d : Nat) (st : State) : copyBits src dst s d 0 st = st := rfl

/-! ## The bits -/

/-- One chunk, bit by bit (rules R54, R56), when the source byte is not the destination byte. -/
theorem copyChunk_bitAt (src dst : Place) (s d c : Nat) (st : State) (hs : s % 8 + c ≤ 8) (hd : d % 8 + c ≤ 8)
    (hacc : dst = .acc → d / 8 < 8) (hne : ¬ (src = dst ∧ s / 8 = d / 8)) (q : Place) (p : Nat) :
    (copyChunk src dst s d c st).bitAt q p =
      if q = dst ∧ d ≤ p ∧ p < d + c then st.bitAt src (s + (p - d)) else st.bitAt q p := by
  simp only [State.bitAt, copyChunk, byteAt_setByte _ dst _ _ hacc]
  by_cases hq : q = dst ∧ p / 8 = d / 8
  · obtain ⟨rfl, hp⟩ := hq
    simp only [hp, and_self, if_true, true_and, if_neg hne]
    rw [msb_mergeChunk _ _ (by omega) (by omega) hs hd (by omega)]
    by_cases hr : d ≤ p ∧ p < d + c
    · rw [if_pos (by omega), if_pos hr]
      rw [show (s + (p - d)) / 8 = s / 8 by omega, show (s + (p - d)) % 8 = p % 8 + s % 8 - d % 8 by omega]
    · rw [if_neg (by omega), if_neg hr]
  · rw [if_neg hq, if_neg hq, if_neg]
    rintro ⟨rfl, h1, h2⟩
    exact hq ⟨rfl, by omega⟩

theorem copyLoop_bitAt (f : Nat) (src dst : Place) (s d r : Nat) (st : State) (hf : r ≤ f)
    (hacc : dst = .acc → d + r ≤ 64) (hne : src = dst → ∀ i j, i < r → j < r → (s + i) / 8 ≠ (d + j) / 8)
    (q : Place) (p : Nat) :
    (copyLoop f src dst s d r st).bitAt q p =
      if q = dst ∧ d ≤ p ∧ p < d + r then st.bitAt src (s + (p - d)) else st.bitAt q p := by
  induction f generalizing s d r st with
  | zero => simp [copyLoop, show r = 0 by omega, show ¬ (d ≤ p ∧ p < d) by omega]
  | succ f ih =>
    simp only [copyLoop]
    by_cases hr : r = 0
    · simp [hr, show ¬ (d ≤ p ∧ p < d) by omega]
    · rw [if_neg hr]
      have hpos : 0 < chunkSize s d r := chunkSize_pos (by omega)
      have hle := chunkSize_le s d r
      have hs := chunkSize_src s d r
      have hd := chunkSize_dst s d r
      generalize chunkSize s d r = c at *
      have hchunk := copyChunk_bitAt src dst s d c st hs hd (fun h => by have := hacc h; omega)
        (fun h => hne h.1 0 0 (by omega) (by omega) (by simpa using h.2))
      rw [ih _ _ _ _ (by omega) (fun h => by have := hacc h; omega)
        (fun h i j hi hj => by
          have := hne h (c + i) (c + j) (by omega) (by omega)
          rwa [← Nat.add_assoc, ← Nat.add_assoc] at this)]
      rw [hchunk, hchunk]
      by_cases hq : q = dst
      · by_cases h1 : d + c ≤ p ∧ p < d + c + (r - c)
        · have hin : ¬ (src = dst ∧ d ≤ s + c + (p - (d + c)) ∧ s + c + (p - (d + c)) < d + c) := by
            rintro ⟨he, h2, h3⟩
            apply hne he (p - d) (s + c + (p - (d + c)) - d) (by omega) (by omega)
            congr 1; omega
          rw [if_pos ⟨hq, h1⟩, if_neg hin, if_pos ⟨hq, by omega⟩,
            show s + c + (p - (d + c)) = s + (p - d) by omega]
        · rw [if_neg (fun h => h1 h.2)]
          by_cases h2 : d ≤ p ∧ p < d + c
          · rw [if_pos ⟨hq, h2⟩, if_pos ⟨hq, by omega⟩]
          · rw [if_neg (fun h => h2 h.2), if_neg (fun h => by omega)]
      · simp [hq]

/-- Source and destination of a copy do not overlap (rule R61), in the form the copy's lemmas use. -/
def Apart (src dst : Place) (s d n : Nat) : Prop :=
  src = dst → ∀ i j, i < n → j < n → (s + i) / 8 ≠ (d + j) / 8

theorem apart_of_ne {src dst : Place} (h : src ≠ dst) (s d n : Nat) : Apart src dst s d n := fun e => absurd e h

theorem apart_buffer_acc (id : BufId) (s d n : Nat) : Apart (.buffer id) .acc s d n := apart_of_ne (by simp) s d n

theorem apart_acc_buffer (id : BufId) (s d n : Nat) : Apart .acc (.buffer id) s d n := apart_of_ne (by simp) s d n

/-- The model's overlap test is rule R61's condition. -/
theorem apart_of_not_overlaps {src dst : BufId} {s d n : Nat} (h : copyOverlaps src dst s d n = false) :
    Apart (.buffer src) (.buffer dst) s d n := by
  intro e i j hi hj he
  have e' : src = dst := by simpa using e
  have : copyOverlaps src dst s d n = true := by
    simp [copyOverlaps, firstTouched, lastTouched, e']
    omega
  simp [this] at h

/-- THE specification of `CopyBits` (rule R57): the destination range holds the source bits, every other bit of every place
is as before. -/
theorem copyBits_bitAt (src dst : Place) (s d n : Nat) (st : State) (hacc : dst = .acc → d + n ≤ 64)
    (h : Apart src dst s d n) (q : Place) (p : Nat) :
    (copyBits src dst s d n st).bitAt q p =
      if q = dst ∧ d ≤ p ∧ p < d + n then st.bitAt src (s + (p - d)) else st.bitAt q p :=
  copyLoop_bitAt n src dst s d n st (Nat.le_refl n) hacc h q p

/-- A byte of another place, or one the range does not touch, is as before (rules R12, R33). -/
theorem copyBits_byteAt_untouched (src dst : Place) (s d n : Nat) (st : State) (hacc : dst = .acc → d + n ≤ 64)
    (h : Apart src dst s d n) (q : Place) (k : Nat) (hk : q = dst → touched d n k = false) :
    (copyBits src dst s d n st).byteAt q k = st.byteAt q k := by
  apply byteAt_eq_of_bits
  intro i hi
  rw [copyBits_bitAt src dst s d n st hacc h, if_neg]
  rintro ⟨hq, h1, h2⟩
  have := hk hq
  have h' : touched d n k = true := by
    simp [touched, firstTouched, lastTouched]
    omega
  simp [this] at h'

/-- A copy that fits its destination keeps every buffer's memory canonical and within its length (rule R60). -/
theorem copyBits_buffersWf {st : State} (h : ∀ id : BufId, st.buf[id].wf ∧ st.buf[id].within st.bufLen[id])
    (src dst : Place) (s d n : Nat) (hd : d + n ≤ 8 * st.placeLen dst) :
    ∀ id : BufId, (copyBits src dst s d n st).buf[id].wf ∧
      (copyBits src dst s d n st).buf[id].within (copyBits src dst s d n st).bufLen[id] := by
  suffices H : ∀ f s d r (st : State), (∀ id : BufId, st.buf[id].wf ∧ st.buf[id].within st.bufLen[id]) →
      d + r ≤ 8 * st.placeLen dst → ∀ id : BufId, (copyLoop f src dst s d r st).buf[id].wf ∧
        (copyLoop f src dst s d r st).buf[id].within (copyLoop f src dst s d r st).bufLen[id] from H n s d n st h hd
  intro f
  induction f with
  | zero => intro s d r st h _; exact h
  | succ f ih =>
    intro s d r st h hd
    simp only [copyLoop]
    split
    · exact h
    · rename_i hr
      have hpos : 0 < chunkSize s d r := chunkSize_pos (by omega)
      have hle := chunkSize_le s d r
      have hlen : ∀ (q : Place) k v, (st.setByte q k v).placeLen dst = st.placeLen dst := by
        intro q k v; cases dst <;> simp [State.placeLen]
      refine ih _ _ _ _ ?_ ?_
      · exact setByte_buffersWf (setByte_buffersWf h dst _ _ (by omega)) dst _ _ (by rw [hlen]; omega)
      · have : (copyChunk src dst s d (chunkSize s d r) st).placeLen dst = st.placeLen dst := by
          cases dst <;> simp [State.placeLen, copyChunk]
        rw [this]; omega

/-- Fuel beyond the bits that remain changes nothing: the loop has ended (rule R58). -/
theorem copyLoop_fuel (f : Nat) (src dst : Place) (s d r : Nat) (st : State) (hf : r ≤ f) :
    copyLoop f src dst s d r st = copyBits src dst s d r st := by
  suffices H : ∀ g f s d r st, r ≤ g → r ≤ f → copyLoop f src dst s d r st = copyLoop g src dst s d r st from
    H r f s d r st (Nat.le_refl r) hf
  intro g
  induction g with
  | zero =>
    intro f s d r st hg _
    cases f <;> simp [copyLoop, show r = 0 by omega]
  | succ g ih =>
    intro f s d r st hg hf
    by_cases hr : r = 0
    · cases f <;> simp [copyLoop, hr]
    · obtain ⟨f', rfl⟩ : ∃ f', f = f' + 1 := ⟨f - 1, by omega⟩
      have hpos : 0 < chunkSize s d r := chunkSize_pos (by omega)
      simp only [copyLoop, if_neg hr]
      exact ih _ _ _ _ _ (by omega) (by omega)

end Sys2Proof.Machine
end

