-- ==== Sys2Proof/Laws/Encoding.lean ====
section
/-! SUPPORT. Fields of a packed command word, and a word put together again from its fields (rule R40). -/

namespace Sys2Proof

@[simp] theorem fieldOP_packCmd (op fa fb x y cnt) : fieldOP (packCmd op fa fb x y cnt) = op := by
  apply BitVec.eq_of_getLsbD_eq
  intro i hi
  simp only [fieldOP, packCmd, BitVec.getLsbD_extractLsb', BitVec.getLsbD_append]
  simp [hi]

@[simp] theorem fieldFA_packCmd (op fa fb x y cnt) : fieldFA (packCmd op fa fb x y cnt) = fa := by
  apply BitVec.eq_of_getLsbD_eq
  intro i hi
  simp only [fieldFA, packCmd, BitVec.getLsbD_extractLsb', BitVec.getLsbD_append]
  simp [hi]

@[simp] theorem fieldFB_packCmd (op fa fb x y cnt) : fieldFB (packCmd op fa fb x y cnt) = fb := by
  apply BitVec.eq_of_getLsbD_eq
  intro i hi
  simp only [fieldFB, packCmd, BitVec.getLsbD_extractLsb', BitVec.getLsbD_append]
  simp [hi, show ¬ 8 + i < 4 by omega, show 8 + i - 4 - 4 = i by omega, show ¬ 8 + i - 4 < 4 by omega]

@[simp] theorem fieldRSV_packCmd (op fa fb x y cnt) : fieldRSV (packCmd op fa fb x y cnt) = 0 := by
  apply BitVec.eq_of_getLsbD_eq
  intro i hi
  simp only [fieldRSV, packCmd, BitVec.getLsbD_extractLsb', BitVec.getLsbD_append]
  simp [hi, show ¬ 12 + i < 4 by omega, show ¬ 12 + i - 4 < 4 by omega, show ¬ 12 + i - 4 - 4 < 4 by omega,
    show 12 + i - 4 - 4 - 4 = i by omega]

@[simp] theorem fieldX_packCmd (op fa fb x y cnt) : fieldX (packCmd op fa fb x y cnt) = x := by
  apply BitVec.eq_of_getLsbD_eq
  intro i hi
  simp only [fieldX, packCmd, BitVec.getLsbD_extractLsb', BitVec.getLsbD_append]
  simp [hi, show ¬ 32 + i < 4 by omega, show ¬ 32 + i - 4 < 4 by omega, show ¬ 32 + i - 4 - 4 < 4 by omega,
    show ¬ 32 + i - 4 - 4 - 4 < 20 by omega, show 32 + i - 4 - 4 - 4 - 20 = i by omega]

@[simp] theorem fieldY_packCmd (op fa fb x y cnt) : fieldY (packCmd op fa fb x y cnt) = y := by
  apply BitVec.eq_of_getLsbD_eq
  intro i hi
  simp only [fieldY, packCmd, BitVec.getLsbD_extractLsb', BitVec.getLsbD_append]
  simp [hi, show ¬ 64 + i < 4 by omega, show ¬ 64 + i - 4 < 4 by omega, show ¬ 64 + i - 4 - 4 < 4 by omega,
    show ¬ 64 + i - 4 - 4 - 4 < 20 by omega, show ¬ 64 + i - 4 - 4 - 4 - 20 < 32 by omega,
    show 64 + i - 4 - 4 - 4 - 20 - 32 = i by omega]

@[simp] theorem fieldCNT_packCmd (op fa fb x y cnt) : fieldCNT (packCmd op fa fb x y cnt) = cnt := by
  apply BitVec.eq_of_getLsbD_eq
  intro i hi
  simp only [fieldCNT, packCmd, BitVec.getLsbD_extractLsb', BitVec.getLsbD_append]
  simp [hi, show ¬ 96 + i < 4 by omega, show ¬ 96 + i - 4 < 4 by omega, show ¬ 96 + i - 4 - 4 < 4 by omega,
    show ¬ 96 + i - 4 - 4 - 4 < 20 by omega, show ¬ 96 + i - 4 - 4 - 4 - 20 < 32 by omega,
    show ¬ 96 + i - 4 - 4 - 4 - 20 - 32 < 32 by omega, show 96 + i - 4 - 4 - 4 - 20 - 32 - 32 = i by omega]

theorem getLsbD_of_field {cmd : Cmd} {a n j i : Nat} (ha : a < n) (hj : j = i) :
    (decide (a < n) && cmd.getLsbD j) = cmd.getLsbD i := by
  simp [ha, hj]

/-- The bits of a word, by the field they stand in. -/
theorem packCmd_fields (cmd : Cmd) (h : fieldRSV cmd = 0) :
    packCmd (fieldOP cmd) (fieldFA cmd) (fieldFB cmd) (fieldX cmd) (fieldY cmd) (fieldCNT cmd) = cmd := by
  rw [packCmd, ← h]
  apply BitVec.eq_of_getLsbD_eq
  intro i hi
  simp only [fieldOP, fieldFA, fieldFB, fieldRSV, fieldX, fieldY, fieldCNT, BitVec.getLsbD_append,
    BitVec.getLsbD_extractLsb']
  repeat' split
  all_goals exact getLsbD_of_field (by omega) (by omega)

@[simp] theorem bufIdOfField_fieldOfBufId (id : BufId) : bufIdOfField (fieldOfBufId id) = id := by
  apply Fin.ext
  simp [bufIdOfField, fieldOfBufId]

@[simp] theorem fieldOfBufId_bufIdOfField (f : Nibble) : fieldOfBufId (bufIdOfField f) = f := by
  simp [bufIdOfField, fieldOfBufId]

end Sys2Proof
end

