-- ==== Sys2Proof/Laws/Exec.lean ====
section
/-! SUPPORT. What each meaning and one step can do: one inversion lemma per function, cited instead of unfolding it. -/

namespace Sys2Proof.Machine

theorem execMask_cases (start count : Nibble) (s : State) :
    (maskRangeErr start.toNat count.toNat = true ∧
      execMask start count s = .next (s.raiseFault .maskRange (encode (.mask start count)))) ∨
    (maskRangeErr start.toNat count.toNat = false ∧
      execMask start count s = .next { s with mr := mask start.toNat count.toNat }) := by
  cases h : maskRangeErr start.toNat count.toNat <;> simp [execMask, maskUnit, h]

theorem execCopy_cases (src dst : BufId) (s d n : Operand) (st : State) :
    (copyOutside st.bufLen[src] st.bufLen[dst] s.toNat d.toNat n.toNat = true ∧
      execCopy src dst s d n st = .next (st.raiseFault .outOfBounds (encode (.copy src dst s d n)))) ∨
    (copyOutside st.bufLen[src] st.bufLen[dst] s.toNat d.toNat n.toNat = false ∧
      copyOverlaps src dst s.toNat d.toNat n.toNat = true ∧
      execCopy src dst s d n st = .refused .overlappingCopy) ∨
    (copyOutside st.bufLen[src] st.bufLen[dst] s.toNat d.toNat n.toNat = false ∧
      copyOverlaps src dst s.toNat d.toNat n.toNat = false ∧
      execCopy src dst s d n st = .next (copyBits (.buffer src) (.buffer dst) s.toNat d.toNat n.toNat st)) := by
  cases h : copyOutside st.bufLen[src] st.bufLen[dst] s.toNat d.toNat n.toNat <;>
    cases h' : copyOverlaps src dst s.toNat d.toNat n.toNat <;> simp_all [execCopy]

theorem execGet_cases (buf : BufId) (n : Nibble) (start bc : Operand) (s : State) :
    (widthInvalid n.toNat bc.toNat = true ∧
      execGet buf n start bc s = .next (s.raiseFault .invalidWidth (encode (.get buf n start bc)))) ∨
    (widthInvalid n.toNat bc.toNat = false ∧ rangeOutside s.bufLen[buf] start.toNat bc.toNat = true ∧
      execGet buf n start bc s = .next (s.raiseFault .outOfBounds (encode (.get buf n start bc)))) ∨
    (widthInvalid n.toNat bc.toNat = false ∧ rangeOutside s.bufLen[buf] start.toNat bc.toNat = false ∧
      execGet buf n start bc s =
        .next (copyBits (.buffer buf) .acc start.toNat (accBitStart n.toNat bc.toNat) bc.toNat s.clearAcc)) := by
  cases h : widthInvalid n.toNat bc.toNat <;>
    cases h' : rangeOutside s.bufLen[buf] start.toNat bc.toNat <;> simp_all [execGet]

theorem execSet_cases (buf : BufId) (n : Nibble) (start bc : Operand) (s : State) :
    (widthInvalid n.toNat bc.toNat = true ∧
      execSet buf n start bc s = .next (s.raiseFault .invalidWidth (encode (.set buf n start bc)))) ∨
    (widthInvalid n.toNat bc.toNat = false ∧ rangeOutside s.bufLen[buf] start.toNat bc.toNat = true ∧
      execSet buf n start bc s = .next (s.raiseFault .outOfBounds (encode (.set buf n start bc)))) ∨
    (widthInvalid n.toNat bc.toNat = false ∧ rangeOutside s.bufLen[buf] start.toNat bc.toNat = false ∧
      execSet buf n start bc s =
        .next (copyBits .acc (.buffer buf) (accBitStart n.toNat bc.toNat) start.toNat bc.toNat s)) := by
  cases h : widthInvalid n.toNat bc.toNat <;>
    cases h' : rangeOutside s.bufLen[buf] start.toNat bc.toNat <;> simp_all [execSet]

/-! ## Issuing and stepping -/

theorem issue_faulted {s : State} (h : s.stateBit = 1) (cmd : Cmd) : issue cmd s = .next s := by
  rw [issue, if_pos h]

theorem issue_illegal {s : State} (h : s.stateBit ≠ 1) {cmd : Cmd} {e : Illegal} (hd : decode cmd = .error e) :
    issue cmd s = .next (s.raiseFault .illegalCommand cmd) := by
  rw [issue, if_neg h, hd]

theorem issue_command {s : State} (h : s.stateBit ≠ 1) {cmd : Cmd} {i : Instr} (hd : decode cmd = .ok i) :
    issue cmd s = exec i s := by
  rw [issue, if_neg h, hd]

theorem step_idle {s : State} (h : s.host.pending = []) : step s = .next s := by simp [step, takeNext, h]

theorem step_action {s : State} {a : HostAction} {rest : List HostAction} (h : s.host.pending = a :: rest) :
    step s = doAction a (s.setPending rest) := by simp [step, takeNext, h]

/-! ## Field geometry (rule R10) -/

theorem widthInvalid_eq_false {n bc : Nat} : widthInvalid n bc = false ↔ 1 ≤ bc ∧ bc ≤ 8 * n := by
  simp [widthInvalid]; omega

theorem rangeOutside_eq_false {len p n : Nat} : rangeOutside len p n = false ↔ p + n ≤ 8 * len := by
  simp [rangeOutside]

/-- `(N*8 - bc) mod 8 = pad(bc)` (rule R10). -/
theorem accBitStart_eq_pad {n bc : Nat} (h : bc ≤ 8 * n) : accBitStart n bc = pad bc := by
  simp only [accBitStart, pad]; omega

/-- `pad(bc) + bc = 8 * L(bc)` (rule R10). -/
theorem pad_add (bc : Nat) : pad bc + bc = 8 * fieldBytes bc := by
  simp only [pad, fieldBytes]; omega

theorem pad_lt (bc : Nat) : pad bc < 8 := by simp only [pad]; omega

/-- A legal field fits the accessor file. -/
theorem pad_add_le {n bc : Nat} (hn : n ≤ 8) (h : bc ≤ 8 * n) : pad bc + bc ≤ 64 := by
  rw [pad_add]; simp only [fieldBytes]; omega

end Sys2Proof.Machine
end

