-- ==== Sys2Proof/Laws/PerInstr.lean ====
section
/-! SUPPORT. Statements made for every instruction, one lemma per constructor of Instr. -/

namespace Sys2Proof.Laws.EncodedFields

/-- The fields of an instruction's word are those of its row in the table of rule R43. -/
def Statement : Instr → Prop
  | i@(.mask start count) => fieldOP (encode i) = 1 ∧ fieldFA (encode i) = start ∧ fieldFB (encode i) = count ∧
      fieldRSV (encode i) = 0 ∧ fieldX (encode i) = 0 ∧ fieldY (encode i) = 0 ∧ fieldCNT (encode i) = 0
  | i@(.copy src dst s d n) => fieldOP (encode i) = 2 ∧ bufIdOfField (fieldFA (encode i)) = src ∧
      bufIdOfField (fieldFB (encode i)) = dst ∧ fieldRSV (encode i) = 0 ∧ fieldX (encode i) = s ∧
      fieldY (encode i) = d ∧ fieldCNT (encode i) = n
  | i@(.get buf n start bc) => fieldOP (encode i) = 3 ∧ bufIdOfField (fieldFA (encode i)) = buf ∧
      fieldFB (encode i) = n ∧ fieldRSV (encode i) = 0 ∧ fieldX (encode i) = start ∧ fieldY (encode i) = 0 ∧
      fieldCNT (encode i) = bc
  | i@(.set buf n start bc) => fieldOP (encode i) = 4 ∧ bufIdOfField (fieldFA (encode i)) = buf ∧
      fieldFB (encode i) = n ∧ fieldRSV (encode i) = 0 ∧ fieldX (encode i) = start ∧ fieldY (encode i) = 0 ∧
      fieldCNT (encode i) = bc

theorem mask (start count : Nibble) : Statement (.mask start count) := by simp [Statement, encode]

theorem copy (src dst : BufId) (s d n : Operand) : Statement (.copy src dst s d n) := by simp [Statement, encode]

theorem get (buf : BufId) (n : Nibble) (start bc : Operand) : Statement (.get buf n start bc) := by
  simp [Statement, encode]

theorem set (buf : BufId) (n : Nibble) (start bc : Operand) : Statement (.set buf n start bc) := by
  simp [Statement, encode]

end Sys2Proof.Laws.EncodedFields
end

