-- ==== Sys2Proof/Tests/Slice0.lean ====
section
/-! SUPPORT. Tests against the vectors of 95_test_vectors.md, the WellFormed smoke, and a witness for the hypotheses of each
statement. -/

open Sys2Proof Sys2Proof.Machine

namespace Sys2Proof.Tests

/-! ## Small states -/

/-- A buffer's memory that holds all of `bytes`. -/
def listed (bytes : List Byte) : Memory := bytes.zipIdx.map fun c => (c.2, c.1)

/-- An accessor file that starts with `bytes`, 0 from there on. -/
def accOf (bytes : List Byte) : Vector Byte 8 := Vector.ofFn fun i : Fin 8 => bytes[i.val]?.getD 0

/-- READY, buffers 0 and 1 holding `b0` and `b1`, the other buffers absent, `ACC` starting with `acc`. -/
def core2 (b0 b1 acc : List Byte) : State :=
  { State.reset with
    acc := accOf acc
    bufLen := (State.reset.bufLen.set 0 b0.length).set 1 b1.length
    buf := (State.reset.buf.set 0 (listed b0)).set 1 (listed b1) }

/-- The same core, the host having `todo` still to do. -/
def withHost (todo : List HostAction) (s : State) : State := s.setPending todo

/-- FAULTED as after V-M10. -/
def faulted (s : State) : State := { s with stateBit := 1, cause := 4, fcmd := 0x271#128, mr := 0xFF }

/-- What an outcome's next state shows; `none` when there is none. -/
def shows {α : Type} (o : Host.Outcome State Fault Refusal) (f : State → α) : Option α :=
  match o with
  | .next t => some (f t)
  | .fault _ => none
  | .refused _ => none

/-- The bytes of buffer `id`, up to its length. -/
def bytesOf (id : BufId) (s : State) : List Byte := (List.range s.bufLen[id]).map fun k => s.byteAt (.buffer id) k

/-! ## WellFormed smoke (rules R43, R44.5) -/

theorem test_get_without_bytes_ill_formed : (Instr.get 0 0 0 1).wellFormed = false := by decide
theorem test_get_nine_bytes_ill_formed : (Instr.get 0 9 0 1).wellFormed = false := by decide
theorem test_set_without_bytes_ill_formed : (Instr.set 0 0 0 1).wellFormed = false := by decide
theorem test_set_nine_bytes_ill_formed : (Instr.set 0 9 0 1).wellFormed = false := by decide
theorem test_boundary_counts_well_formed :
    (Instr.get 0 1 0 1).wellFormed = true ∧ (Instr.set 0 8 0 1).wellFormed = true := by decide

/-! ## Decoding (V-E1 to V-E16) -/

theorem test_decode_mask : decode 0x00000000000000000000000000000621#128 = .ok (.mask 2 6) := by decide
theorem test_decode_copy : decode 0x00000006000000020000000500000102#128 = .ok (.copy 0 1 5 2 6) := by decide
theorem test_decode_get : decode 0x00000017000000000000000100000403#128 = .ok (.get 0 4 1 23) := by decide
theorem test_decode_set : decode 0x00000006000000000000000200000124#128 = .ok (.set 2 1 2 6) := by decide
theorem test_decode_copy_zero : decode 0x00000000000007D0000003E800000102#128 = .ok (.copy 0 1 1000 2000 0) := by decide
theorem test_illegal_opcode :
    decode 0#128 = .error .opcode ∧ decode 5#128 = .error .opcode ∧ decode 15#128 = .error .opcode := by decide
theorem test_illegal_reserved :
    decode 0x1102#128 = .error .reservedField ∧ decode 0x80000621#128 = .error .reservedField := by decide
theorem test_illegal_unused :
    decode 0x00000000000000000000000100000801#128 = .error .unusedField ∧
    decode 0x00000001000000000000000000000801#128 = .error .unusedField ∧
    decode 0x00000001000000010000000000000103#128 = .error .unusedField := by decide
theorem test_illegal_accessor_count :
    decode 0x00000001000000000000000000000003#128 = .error .accessorCount ∧
    decode 0x00000001000000000000000000000903#128 = .error .accessorCount ∧
    decode 0x00000001000000000000000000000F04#128 = .error .accessorCount := by decide
/-- The words of opcode_table.json's rows with every operand bit 0: MASK 0, 0 and COPY 0, 0, 0, 0, 0 are commands; GET and SET
with N = 0 are not (V-M9, V-E8). -/
theorem test_table_words :
    decodeTableWord 128 1 = some (.mask 0 0) ∧ decodeTableWord 128 2 = some (.copy 0 0 0 0 0) ∧
    decodeTableWord 128 3 = none ∧ decodeTableWord 128 4 = none := by decide

/-! ## Commands -/

/-- V-M3. -/
theorem test_mask_2_6 : shows (exec (.mask 2 6) State.reset) (fun t => (t.mr, t.stateBit)) = some (0x3F, 0) := by decide
/-- V-M10: MASK 7, 2 after V-M1. -/
theorem test_mask_7_2_faults :
    shows (exec (.mask 7 2) { State.reset with mr := 0xFF }) (fun t => (t.mr, t.stateBit, t.cause, t.fcmd)) =
      some (0xFF, 1, 4, 0x271#128) := by decide
/-- V-C4: five chunks across three bytes. -/
theorem test_copy_unaligned :
    shows (exec (.copy 0 1 1 6 17) (core2 [0xB1, 0xE5, 0x2E] [0, 0, 0] [])) (bytesOf 1) =
      some [0x01, 0x8F, 0x28] := by decide
/-- V-C13: an overlapping copy has no result. -/
theorem test_copy_overlap :
    exec (.copy 0 0 0 4 8) (core2 [0xB1, 0xE5, 0x00] [] []) = .refused .overlappingCopy := by rfl
/-- V-G4: the stale bytes of `ACC` are gone, `pad` = 3. -/
theorem test_get_13_bits :
    shows (exec (.get 0 2 3 13) (core2 [0xB1, 0xE5, 0x2E] [] (List.replicate 8 0xFF)))
      (fun t => (t.acc.toList, leValue t.acc 2)) = some ([0x11, 0xE5, 0, 0, 0, 0, 0, 0], 0xE511) := by decide
/-- V-G13: INVALID_WIDTH wins over OUT_OF_BOUNDS, and `ACC` is not zeroed. -/
theorem test_get_fault_order :
    shows (exec (.get 0 1 100 9) (core2 [0xB1] [] (List.replicate 8 0x11))) (fun t => (t.acc.toList, t.cause)) =
      some (List.replicate 8 0x11, 2) := by decide
/-- V-S2. -/
theorem test_set_6_bits :
    shows (exec (.set 0 1 5 6) (core2 [0xFF, 0xFF] [] [0x0F])) (bytesOf 0) = some [0xF9, 0xFF] := by decide
/-- V-S12: nothing is written when the field ends past the buffer. -/
theorem test_set_precise_fault :
    shows (exec (.set 0 1 7 2) (core2 [0xB1] [] [0x01])) (fun t => (bytesOf 0 t, t.cause, t.fcmd)) =
      some ([0xB1], 3, 0x00000002000000000000000700000104#128) := by decide

/-! ## Steps -/

/-- V-M3 through the host's view: the word placed as the next item is issued by the very next step. -/
theorem test_step_fetches :
    shows (step (State.reset.withFetchWord 128 0x621)) (fun t => (t.mr, t.host.pending)) = some (0x3F, []) := by decide
/-- V-F3: a command word issued to a FAULTED core changes nothing. -/
theorem test_step_faulted :
    shows (step (withHost [.issue 0] (faulted State.reset))) (fun t => (t.cause, t.fcmd)) = some (4, 0x271#128) := by decide
/-- V-F2: reset clears the record, `MR` and `ACC`, and leaves the buffers. -/
theorem test_step_reset :
    shows (step (withHost [.reset []] (faulted (core2 [0xB1] [] [0x01]))))
      (fun t => ((t.stateBit, t.cause, t.fcmd, t.mr), (t.acc.toList, bytesOf 0 t))) =
        some ((0, 0, 0, 0), (List.replicate 8 0, [0xB1])) := by decide

/-! ## Witnesses: the hypotheses of each statement can be met -/

/-- DecodeOfEncode, every constructor at boundary operands. -/
theorem witness_wellFormed :
    (Instr.mask 15 15).wellFormed = true ∧ (Instr.copy 15 15 0xFFFFFFFF 0xFFFFFFFF 0xFFFFFFFF).wellFormed = true ∧
    (Instr.get 15 1 0 0).wellFormed = true ∧ (Instr.get 0 8 0xFFFFFFFF 0xFFFFFFFF).wellFormed = true ∧
    (Instr.set 15 1 0 0).wellFormed = true ∧ (Instr.set 0 8 0xFFFFFFFF 0xFFFFFFFF).wellFormed = true := by decide

/-- EncodeOfDecode. -/
theorem witness_decodes : decode 0x00000017000000000000000100000803#128 = .ok (.get 0 8 1 23) := by decide

/-- RowsSelectByMatchAndMask: a word for each row, N at both ends. -/
theorem witness_rows :
    0xFF1#128 &&& 0xFFFFFFFFFFFFFFFFFFFFFFFFFFFFF00F#128 = 1#128 ∧
    0xFFFFFFFFFFFFFFFFFFFFFFFF00000FF2#128 &&& 0x000000000000000000000000FFFFF00F#128 = 2#128 ∧
    (0xFFFFFFFF00000000FFFFFFFF000001F3#128 &&& 0x00000000FFFFFFFF00000000FFFFF00F#128 = 3#128 ∧
      (fieldFB 0xFFFFFFFF00000000FFFFFFFF000001F3#128).toNat = 1) ∧
    (0xFFFFFFFF00000000FFFFFFFF000008F4#128 &&& 0x00000000FFFFFFFF00000000FFFFF00F#128 = 4#128 ∧
      (fieldFB 0xFFFFFFFF00000000FFFFFFFF000008F4#128).toNat = 8) := by decide

/-- IllegalWordsRaiseIllegalCommand: a word for each condition at its boundary, and words that meet none. -/
theorem witness_illegal :
    State.reset.stateBit = 0 ∧ (fieldOP 0#128).toNat = 0 ∧ (fieldOP 5#128).toNat = 5 ∧ fieldRSV 0x1102#128 ≠ 0 ∧
    (fieldOP 0x100000801#128 = 1 ∧ fieldX 0x100000801#128 ≠ 0) ∧
    (fieldOP 0x10000000000000801#128 = 1 ∧ fieldY 0x10000000000000801#128 ≠ 0) ∧
    (fieldOP 0x1000000000000000000000801#128 = 1 ∧ fieldCNT 0x1000000000000000000000801#128 ≠ 0) ∧
    (fieldOP 0x10000000000000103#128 = 3 ∧ fieldY 0x10000000000000103#128 ≠ 0) ∧
    (fieldOP 3#128 = 3 ∧ fieldFB 3#128 = 0) ∧ (fieldOP 0x904#128 = 4 ∧ (fieldFB 0x904#128).toNat = 9) ∧
    illegalWord 0x103#128 = false ∧ illegalWord 0x804#128 = false ∧ illegalWord 0xFF1#128 = false ∧
    illegalWord 2#128 = false := by decide

/-- StepRunsDecodedCommand. -/
theorem witness_step_command :
    let s := withHost [.issue 0x621, .read .maskResult] State.reset
    s.host.pending = .issue 0x621 :: [.read .maskResult] ∧ s.stateBit = 0 ∧ decode 0x621 = .ok (.mask 2 6) := by decide

/-- StepTakesItemsInOrder: a step that takes an item, and a state with none left. -/
theorem witness_step_item :
    step (withHost [.read .maskResult] State.reset) = .next (State.reset.reply ⟨.maskResult, 0⟩) ∧
    State.reset.host.pending = [] := ⟨rfl, rfl⟩

/-- OnlyMaskWritesMR: by reset, and by MASK. -/
theorem witness_mr_changes :
    shows (step (withHost [.reset []] (faulted State.reset))) (fun t => decide (t.mr ≠ (faulted State.reset).mr)) =
      some true ∧
    shows (step (withHost [.issue 0x801] State.reset)) (fun t => decide (t.mr ≠ State.reset.mr)) = some true := by decide

/-- OnlyGetResetAndHostWriteACC: by reset, by a host write, by GET. -/
theorem witness_acc_changes :
    shows (step (withHost [.reset []] (core2 [] [] [1]))) (fun t => decide (t.acc ≠ accOf [1])) = some true ∧
    shows (step (withHost [.writeAcc 7 1] State.reset)) (fun t => decide (t.acc ≠ State.reset.acc)) = some true ∧
    shows (step (withHost [.issue 0x00000008000000000000000000000103#128] (core2 [0xB1] [] [])))
      (fun t => decide (t.acc ≠ accOf [])) = some true := by decide

/-- BufferWritersAndLengths: a length changes at reset; a byte changes by a host write, a load, COPY, SET. -/
theorem witness_buffer_changes :
    shows (step (withHost [.reset [(0, 1)]] State.reset)) (fun t => decide (t.bufLen ≠ State.reset.bufLen)) = some true ∧
    shows (step (withHost [.writeByte 0 0 1] (core2 [0] [] []))) (bytesOf 0) = some [1] ∧
    shows (step (withHost [.loadBuffer 0 [1]] (core2 [0] [] []))) (bytesOf 0) = some [1] ∧
    shows (step (withHost [.issue 0x00000008000000000000000000000012#128] (core2 [0] [1] []))) (bytesOf 0) = some [1] ∧
    shows (step (withHost [.issue 0x00000008000000000000000000000104#128] (core2 [0] [] [1]))) (bytesOf 0) = some [1] := by
  decide

/-- BufferWritersAndLengths: a byte changes by a shorter length at reset, whatever an unwritten byte reads as. -/
theorem witness_byte_lost_at_reset :
    let s := core2 [Config.unheldByte 0 0 + 1] [] []
    (s.fixLengths [(0, 0)]).byteAt (.buffer 0) 0 ≠ s.byteAt (.buffer 0) 0 := by
  show Config.unheldByte 0 0 ≠ Config.unheldByte 0 0 + 1
  intro h
  exact absurd (congrArg (· - Config.unheldByte 0 0) h) (by simp)

/-- HostRegisterAccess: a write of the last accessor byte, a register read, and an action that is neither reset nor issue. -/
theorem witness_host_register :
    (withHost [.writeAcc 7 0xFF] State.reset).host.pending = .writeAcc 7 0xFF :: [] ∧
    (withHost [.read .faultCmd] (faulted State.reset)).host.pending = .read .faultCmd :: [] ∧
    (∀ id k, ReadTarget.faultCmd ≠ .bufByte id k) ∧
    (shows (step (withHost [.writeAcc 7 0xFF] State.reset)) (fun t => t.acc[7])) = some 0xFF :=
  ⟨rfl, rfl, by simp, by decide⟩

/-- MaskIsContiguousOnes, MaskUnitPorts, MaskTableAndLaws, MaskCommandResult: both ends of the domain, and just outside. -/
theorem witness_mask_domain :
    (0 < 8 ∧ 0 + 8 ≤ 8) ∧ (7 < 8 ∧ 7 + 1 ≤ 8) ∧ (maskUnit 0 8).rangeErr = false ∧ (maskUnit 7 1).rangeErr = false ∧
    (maskUnit 8 0).rangeErr = true ∧ (maskUnit 7 2).rangeErr = true ∧
    ((0 : Nibble).toNat < 8 ∧ (0 : Nibble).toNat + (8 : Nibble).toNat ≤ 8) ∧
    (8 ≤ (8 : Nibble).toNat) ∧ (8 < (7 : Nibble).toNat + (2 : Nibble).toNat) := by decide

/-- ChunkStaysInOneByte: a copy of one bit into the last bit of `ACC`, from states that agree on the two bytes. -/
theorem witness_chunk :
    let s := core2 [1, 2] [] []
    let s' := core2 [1, 3] [] []
    0 < 1 ∧ 63 < 64 ∧ s.byteAt (.buffer 0) (7 / 8) = s'.byteAt (.buffer 0) (7 / 8) ∧
      s.byteAt .acc (63 / 8) = s'.byteAt .acc (63 / 8) ∧ ¬ (Place.acc = .acc ∧ 6 = 63 / 8) := by decide

/-- ShiftLosesNothing: the widest chunk, and single bits moved seven places either way. -/
theorem witness_shift :
    (0 < 8 ∧ 1 ≤ 8 ∧ 0 + 8 ≤ 8) ∧ (7 < 8 ∧ 0 < 8 ∧ 1 ≤ 1 ∧ 7 + 1 ≤ 8 ∧ 0 + 1 ≤ 8) := by decide

/-- CopyMovesExactlyTheRange, CopyFrame: V-C12 (one buffer, touched bytes apart, the last byte reached), V-C11, and an empty
range anywhere. -/
theorem witness_copy :
    let s := core2 [0xB1, 0xE5, 0] [0x5A] []
    (copyInBounds 0 0 4 16 8 s ∧ ¬ rangesOverlap 0 0 4 16 8) ∧ (copyInBounds 0 1 4 4 4 s ∧ ¬ rangesOverlap 0 1 4 4 4) ∧
    (copyInBounds 7 9 1000 2000 0 s ∧ ¬ rangesOverlap 7 9 1000 2000 0) := by decide
/-- CopyMovesExactlyTheRange, between places: a 64-bit field into `ACC`, and out of it. -/
theorem witness_copy_places :
    let s := core2 [1, 2, 3, 4, 5, 6, 7, 8, 9] [] []
    (1 + 64 ≤ 8 * s.placeLen (.buffer 0) ∧ 0 + 64 ≤ 8 * s.placeLen .acc ∧ ¬ (Place.buffer 0 = .acc ∧ 1 ≤ 64)) ∧
    (0 + 64 ≤ 8 * s.placeLen .acc ∧ 8 + 64 ≤ 8 * s.placeLen (.buffer 0) ∧ ¬ (Place.acc = .buffer 0 ∧ 1 ≤ 64)) := by decide
/-- CopyFrame's second hypothesis. -/
theorem witness_copy_next :
    shows (exec (.copy 0 0 4 16 8) (core2 [0xB1, 0xE5, 0] [] [])) (bytesOf 0) = some [0xB1, 0xE5, 0x1E] := by decide

/-- CopyLoopEnds: one bit, and equal alignment over two bytes. -/
theorem witness_loop : 1 ≤ 1 ∧ 1 ≤ 13 ∧ 3 % 8 = 11 % 8 ∧ copyIterations 13 3 3 13 = 2 ∧ copyIterations 17 1 6 17 = 5 := by
  decide

/-- OverlappingCopyIsRefused: bounds met, overlapping at one byte (V-C13) and not (V-C12). -/
theorem witness_overlap :
    let s := core2 [0xB1, 0xE5, 0] [] []
    (copyInBounds 0 0 0 4 8 s ∧ rangesOverlap 0 0 0 4 8) ∧ (copyInBounds 0 0 4 16 8 s ∧ ¬ rangesOverlap 0 0 4 16 8) := by
  decide

/-- The statements about a legal field: the last bit of a buffer (V-G8), 64 bits (V-G14), and the two byte counts that hold one
field (V-G4, V-G5). -/
theorem witness_field :
    let s := core2 [0xB1, 0xE5, 0x2E] [] []
    let w := core2 [1, 2, 3, 4, 5, 6, 7, 8, 9] [] []
    legalField 0 1 23 1 s ∧ legalField 0 8 1 64 w ∧ legalField 0 8 8 64 w ∧ legalField 0 2 3 13 s ∧ legalField 0 4 3 13 s := by
  decide

/-- GetReadsOnlyTouchedBytes: two states that differ in a byte the field does not touch. -/
theorem witness_touched :
    let s := core2 [0xB1, 0xE5] [] []
    let s' := core2 [0xB1, 0] [] []
    legalField 0 1 0 8 s ∧ legalField 0 1 0 8 s' ∧ s ≠ s' ∧
      ∀ k, touched 0 8 k = true → s.byteAt (.buffer 0) k = s'.byteAt (.buffer 0) k := by
  refine ⟨by decide, by decide, by decide, fun k hk => ?_⟩
  have : k = 0 := by
    simp [touched, lastTouched] at hk
    omega
  subst this
  decide

/-- GetIntegerValue: the smallest and the largest width that reach the field. -/
theorem witness_integer_width : legalField 0 2 3 13 (core2 [0xB1, 0xE5, 0x2E] [] []) ∧ fieldBytes 13 ≤ 2 ∧ fieldBytes 13 ≤ 8 := by
  decide

/-- SetFrame's second hypothesis. -/
theorem witness_set_next : shows (exec (.set 0 1 5 6) (core2 [0xFF, 0xFF] [] [0x0F])) (bytesOf 0) = some [0xF9, 0xFF] := by
  decide

/-- SetIgnoresStrayBits (V-S5): two files that differ in stray bits only. -/
theorem witness_stray :
    let s := core2 [0, 0] [] []
    legalField 0 1 6 3 s ∧ accOf [0xFF, 0xAA] ≠ accOf [0x07] ∧
      ∀ k, k < 3 → { s with acc := accOf [0xFF, 0xAA] }.bitAt .acc (pad 3 + k) =
        { s with acc := accOf [0x07] }.bitAt .acc (pad 3 + k) := by decide

/-- SetStoresIntegerBits, IntegerRoundTrip: V-S7 (reads back) and V-S8 (does not), and the largest 64-bit integer. -/
theorem witness_integer :
    let s := core2 [0x80, 0, 0] [] [0x55, 0xAA, 0x33]
    let s' := core2 [0x80, 0, 0] [] [0xFF, 0xFF, 0x7F]
    let w := core2 [0, 0, 0, 0, 0, 0, 0, 0] [] (List.replicate 8 0xFF)
    (legalField 0 4 1 23 s ∧ 0x33AA55 < 256 ^ 4 ∧ holdsInteger s.acc 4 0x33AA55) ∧
    (legalField 0 4 1 23 s' ∧ 0x7FFFFF < 256 ^ 4 ∧ holdsInteger s'.acc 4 0x7FFFFF) ∧
    (legalField 0 8 0 64 w ∧ 2 ^ 64 - 1 < 256 ^ 8 ∧ holdsInteger w.acc 8 (2 ^ 64 - 1)) := by decide

/-- IntegerRoundTrip: each kind of width at both ends, and N and M apart. -/
theorem witness_integer_cases :
    (1 ≤ 1 ∧ 1 ≤ 8) ∧ (64 ≤ 64 ∧ 64 % 8 = 0) ∧ (8 < 9 ∧ 9 % 8 ≠ 0) ∧ (63 ≤ 64 ∧ 63 % 8 ≠ 0) ∧
    (let s := core2 [0x80, 0, 0] [] [0x55, 0xAA, 0x33]
     legalField 0 4 1 23 s ∧ legalField 0 3 1 23 s) := by decide

/-- AccessorCountDoesNotMatter: GET.2 is legal for nine bits, GET.1 is not (V-G11). -/
theorem witness_accessor_count : legalField 0 2 0 9 (core2 [0xB1, 0xE5] [] []) ∧ 8 * (1 : Nibble).toNat < (9 : Operand).toNat := by
  decide

/-- RoundTripCanonical: V-S7b, the largest canonical pattern of 23 bits. -/
theorem witness_canonical :
    legalField 0 4 1 23 (core2 [0x80, 0, 0] [] [0x7F, 0xFF, 0xFF]) ∧ canonical 23 (core2 [0x80, 0, 0] [] [0x7F, 0xFF, 0xFF]) := by
  refine ⟨by decide, ?_⟩
  show ∀ q, q < 64 → _
  decide

/-- SetLeavesDisjointField, SetsIdempotentAndCommute: two fields that meet inside one byte, in either order, and two buffers. -/
theorem witness_disjoint :
    let s := core2 [0, 0] [0] []
    (legalField 0 1 0 5 s ∧ legalField 0 1 5 6 s ∧ 0 + 5 ≤ 5) ∧ legalField 1 1 0 5 s ∧ (0 : BufId) ≠ 1 := by decide

/-- GetThenSetMovesAsCopyDoes: across two buffers, and within one. -/
theorem witness_move :
    let s := core2 [0xB1, 0xE5, 0] [0x5A] []
    (legalField 0 1 4 8 s ∧ legalField 1 1 0 8 s ∧ ¬ rangesOverlap 0 1 4 0 8) ∧
    (legalField 0 1 4 8 s ∧ legalField 0 1 16 8 s ∧ ¬ rangesOverlap 0 0 4 16 8) := by decide

/-- DataNeverFaults: two cores that hold different data, the word of V-S12. -/
theorem witness_data :
    let cmd : Cmd := 0x00000002000000000000000700000104#128
    let s := withHost [.issue cmd] (core2 [0xB1] [] [1])
    let s' := withHost [.issue cmd] (core2 [0x00] [] [0xFF])
    s ≠ s' ∧ s.stateBit = 0 ∧ s'.stateBit = 0 ∧ s.bufLen = s'.bufLen ∧
      shows (step s) (·.cause) = some 3 ∧ shows (step s') (·.cause) = some 3 := by decide

/-- InvalidWidthFault: no bits, one bit too many; and a COPY and a MASK that answer a next state. -/
theorem witness_width :
    ((0 : Operand).toNat = 0) ∧ (8 * (1 : Nibble).toNat < (9 : Operand).toNat) ∧
    shows (exec (.copy 0 1 4 0 5) (core2 [0xB1] [0x5A, 0x5A] [])) (·.cause) = some 3 ∧
    shows (exec (.mask 4 5) State.reset) (·.cause) = some 4 := by decide

/-- OutOfBoundsFault: one bit past the source (V-C9), one bit past the destination (V-C10), the sum 2^32 (V-C16), and GET's and
SET's field one bit too far (V-G12). -/
theorem witness_bounds :
    let s := core2 [0xB1, 0xE5] [0x5A] []
    8 * s.bufLen[(1 : BufId)] < 4 + 5 ∧ 4 + 5 ≤ 8 * s.bufLen[(0 : BufId)] ∧
    8 * s.bufLen[(0 : BufId)] < (0xFFFFFFFF : Operand).toNat + (1 : Operand).toNat ∧
    (1 ≤ 9 ∧ 9 ≤ 8 * 2 ∧ 8 * s.bufLen[(0 : BufId)] < 8 + 9) ∧ (8 ≤ 8 ∧ 64 ≤ 8 * 8) := by decide

/-- FaultsExactlyAsTabulated: a word for each cause (V-F5, V-F4, V-C9, V-M11), an overlapping one (V-C13), one with none. -/
theorem witness_expected_fault :
    let lens := (core2 [0xB1, 0xE5, 0] [0x5A] []).bufLen
    expectedFault 0x00000009000000000000006400000903#128 lens = some .illegalCommand ∧
    expectedFault 0x00000009000000000000006400000103#128 lens = some .invalidWidth ∧
    expectedFault 0x00000005000000040000000000000102#128 lens = some .outOfBounds ∧
    expectedFault 0x81#128 lens = some .maskRange ∧
    (expectedFault 0x00000008000000040000000000000002#128 lens = none ∧
      overlappingWord 0x00000008000000040000000000000002#128 = true) ∧
    (expectedFault 0x00000008000000100000000400000002#128 lens = none ∧
      overlappingWord 0x00000008000000100000000400000002#128 = false) := by decide

/-- FaultEntryWritesOnlyTheRecord. -/
theorem witness_fault_entry :
    shows (step (withHost [.issue 0] State.reset)) (fun t => (t.stateBit, t.cause)) = some (1, 1) := by decide

/-- FaultedUntilReset: a FAULTED core with each kind of next item. -/
theorem witness_faulted :
    let s := faulted (core2 [0xB1] [] [])
    s.stateBit = 1 ∧ (withHost [.issue 0x801] s).host.pending = [.issue 0x801] ∧
    (withHost [.reset []] s).host.pending = [.reset []] ∧
    (withHost [.writeAcc 7 1] s).host.pending = [.writeAcc 7 1] ∧
    (withHost [.writeByte 0 0 1] s).host.pending = [.writeByte 0 0 1] ∧ 0 < s.bufLen[(0 : BufId)] ∧
    (withHost [.loadBuffer 0 [1]] s).host.pending = [.loadBuffer 0 [1]] ∧ [(1 : Byte)].length = s.bufLen[(0 : BufId)] ∧
    (withHost [.read .runState] s).host.pending = [.read .runState] ∧ hostActionOutside (.writeByte 0 0 1) s = false ∧
    hostActionOutside (.read .runState) s = false ∧ hostActionOutside (.loadBuffer 0 [1]) s = false ∧ hostActionOutside (.read (.bufByte 0 0)) s = false ∧
    hostActionOutside (.writeAcc 7 1) s = false := by decide

/-- HostBufferAccess, StepStopsOnlyThere: the last byte of a buffer is accepted, the one after it is not. -/
theorem witness_host_buffer :
    let s := core2 [0xB1, 0xE5] [] []
    1 < s.bufLen[(0 : BufId)] ∧ [(1 : Byte), 2].length ≤ s.bufLen[(0 : BufId)] ∧
    hostActionOutside (.writeByte 0 1 7) s = false ∧ hostActionOutside (.writeByte 0 2 7) s = true ∧
    hostActionOutside (.loadBuffer 0 [1, 2, 3]) s = true ∧ hostActionOutside (.read (.bufByte 0 2)) s = true := by decide

/-- ResetEffect, ResetFixesLengths: the host's next item is a reset, without a length, with one, and with a buffer named twice and
one not named. -/
theorem witness_reset_item :
    (withHost [.reset []] State.reset).host.pending = [.reset []] ∧
    (withHost [.reset [(15, 4)]] State.reset).host.pending = [.reset [(15, 4)]] ∧
    (withHost [.reset [(0, 1), (15, 2), (0, 4)]] State.reset).host.pending = [.reset [(0, 1), (15, 2), (0, 4)]] ∧
    lastLength [(0, 1), (15, 2), (0, 4)] 0 7 = 4 ∧ lastLength [(0, 1), (15, 2), (0, 4)] 1 7 = 7 ∧
    (∀ n, (1, n) ∉ [((0 : BufId), 1), (15, 2), (0, 4)]) ∧ (0, 4) ∈ [((0 : BufId), 1), (15, 2), (0, 4)] ∧
    (faulted State.reset).stateBit = 1 ∧
    shows (step (withHost [.reset []] (faulted State.reset))) (fun t => t.stateBit) = some 0 :=
  ⟨rfl, rfl, rfl, by decide, by decide, by simp, by decide, by decide, by decide⟩

/-- The model's choice of assumption 17: a length named in between costs no byte below the one that stands at release. -/
theorem test_reset_names_twice :
    shows (step (withHost [.reset [(0, 1), (0, 3)]] (core2 [1, 2, 3, 4] [] []))) (fun t => (bytesOf 0 t, t.buf[(0 : BufId)])) =
      some ([1, 2, 3], listed [1, 2, 3]) := by decide

/-- StepKeepsInvariant: states that meet the invariant, READY with bytes and FAULTED. -/
theorem witness_invariant : (core2 [0xB1, 0xE5] [0x5A] [1]).Inv ∧ (faulted (core2 [0xB1] [] [])).Inv := by decide

end Sys2Proof.Tests
end

section
/-! The integer the caller reads after GET (rules R9, R64, R66), and the lengths a reset fixes (rules R24, R94, R97). -/

namespace Sys2Proof.Machine

/-! ## The integer view of `ACC`, bit by bit (rule R9) -/

/-- The number a bit of a byte contributes (rule R7). -/
theorem msb_toNat (b : Byte) {i : Nat} (hi : i < 8) : (msb b i).toNat = b.toNat / 2 ^ (7 - i) % 2 := by
  rw [← Nat.toNat_testBit]
  simp [msb, BitVec.getMsbD, hi, BitVec.getLsbD]

/-- A byte is the weighted sum of its bits, the most significant first. -/
theorem byte_toNat_eq_sum (b : Byte) : b.toNat = ∑ i ∈ Finset.range 8, (msb b i).toNat * 2 ^ (7 - i) := by
  have hb : b.toNat < 256 := b.isLt
  have hbits : ∑ i ∈ Finset.range 8, (msb b i).toNat * 2 ^ (7 - i) =
      ∑ i ∈ Finset.range 8, b.toNat / 2 ^ (7 - i) % 2 * 2 ^ (7 - i) :=
    Finset.sum_congr rfl fun i hi => by rw [msb_toNat b (Finset.mem_range.mp hi)]
  rw [hbits]
  simp only [Finset.sum_range_succ, Finset.sum_range_zero]
  omega

/-- Bit `i` of accessor byte `k` weighs `256 ^ k` times its weight within the byte. -/
theorem two_pow_bitWeight (k : Nat) {i : Nat} (hi : i < 8) :
    2 ^ bitWeight (8 * k + i) = 256 ^ k * 2 ^ (7 - i) := by
  rw [bitWeight, show 8 * ((8 * k + i) / 8) + 7 - (8 * k + i) % 8 = 8 * k + (7 - i) by omega, pow_add, pow_mul]
  rfl

/-- `LE(ACC, m)` is the weighted sum of the first `8 * m` bits of the accessor array. -/
theorem leValue_eq_sum_bits (s : State) {m : Nat} (hm : m ≤ 8) :
    leValue s.acc m = ∑ q ∈ Finset.range (8 * m), (s.bitAt .acc q).toNat * 2 ^ bitWeight q := by
  induction m with
  | zero => rfl
  | succ m ih =>
    have hbyte : 256 ^ m * (s.byteAt .acc m).toNat =
        ∑ i ∈ Finset.range 8, (s.bitAt .acc (8 * m + i)).toNat * 2 ^ bitWeight (8 * m + i) := by
      rw [byte_toNat_eq_sum, Finset.mul_sum]
      refine Finset.sum_congr rfl fun i hi => ?_
      have hi8 : i < 8 := Finset.mem_range.mp hi
      rw [bitAt_eq s .acc m i hi8, two_pow_bitWeight m hi8, Nat.mul_left_comm]
    have hacc : s.acc[m]?.getD 0 = s.byteAt .acc m := by
      simp [State.byteAt, show m < 8 by omega]
    rw [Nat.mul_succ, Finset.sum_range_add, ← ih (by omega), ← hbyte, leValue, hacc]

/-! ## A legal GET (rules R63, R64) -/

/-- A legal GET clears `ACC` and copies the field to bit `pad(bc)` of it. -/
theorem exec_get_of_legalField {buf : BufId} {n : Nibble} {start bc : Operand} {s : State}
    (h : legalField buf n.toNat start.toNat bc.toNat s) :
    exec (.get buf n start bc) s =
      .next (copyBits (.buffer buf) .acc start.toNat (pad bc.toNat) bc.toNat s.clearAcc) := by
  obtain ⟨_, _, hbc, hwidth, hbounds⟩ := h
  have hw := widthInvalid_eq_false.mpr ⟨hbc, hwidth⟩
  have hr := rangeOutside_eq_false.mpr hbounds
  rcases execGet_cases buf n start bc s with ⟨hw', _⟩ | ⟨_, hr', _⟩ | ⟨_, _, hget⟩
  · cases hw.symm.trans hw'
  · cases hr.symm.trans hr'
  · rw [← accBitStart_eq_pad hwidth]
    exact hget

/-- The accessor array after a field of `bc` bits is copied into a cleared one: the field's bits in its range, 0 outside. -/
theorem bitAt_acc_copyBits_clearAcc (buf : BufId) (start : Nat) {d bc : Nat} (s : State) (hfit : d + bc ≤ 64)
    {q : Nat} (hq : q < 64) :
    (copyBits (.buffer buf) .acc start d bc s.clearAcc).bitAt .acc q =
      (decide (d ≤ q ∧ q < d + bc) && s.bitAt (.buffer buf) (start + (q - d))) := by
  rw [copyBits_bitAt _ _ _ _ _ _ (fun _ => hfit) (apart_buffer_acc buf start d bc)]
  by_cases hin : d ≤ q ∧ q < d + bc
  · simp [hin, State.bitAt]
  · simp [hin, bitAt_clearAcc s hq]

/-- A sum whose terms are 0 outside `[d, d + n)`. -/
theorem sum_range_eq_sum_window {f : Nat → Nat} {d n N : Nat} (hN : d + n ≤ N)
    (h0 : ∀ q, q < N → ¬ (d ≤ q ∧ q < d + n) → f q = 0) :
    ∑ q ∈ Finset.range N, f q = ∑ k ∈ Finset.range n, f (d + k) := by
  obtain ⟨r, rfl⟩ := Nat.exists_eq_add_of_le hN
  have hbelow : ∑ q ∈ Finset.range d, f q = 0 := Finset.sum_eq_zero fun q hq => by
    rw [Finset.mem_range] at hq
    exact h0 q (by omega) (by omega)
  have habove : ∑ k ∈ Finset.range r, f (d + n + k) = 0 := Finset.sum_eq_zero fun k hk => by
    rw [Finset.mem_range] at hk
    exact h0 _ (by omega) (by omega)
  rw [Finset.sum_range_add, Finset.sum_range_add, hbelow, habove, Nat.zero_add, Nat.add_zero]

/-- Settles O25: `LE(ACC, m)` sums the bits of the accessor array, and only the field's range of it is not 0. -/
theorem getIntegerValue : Obligations.GetIntegerValue := by
  unfold Obligations.GetIntegerValue
  intro buf n start bc s m hlegal hm hm8
  refine ⟨_, exec_get_of_legalField hlegal, ?_⟩
  have hfit : pad bc.toNat + bc.toNat ≤ 8 * m := by rw [pad_add]; omega
  have hbit := fun q (hq : q < 8 * m) =>
    bitAt_acc_copyBits_clearAcc buf start.toNat s (show pad bc.toNat + bc.toNat ≤ 64 by omega)
      (show q < 64 by omega)
  rw [leValue_eq_sum_bits _ hm8, sum_range_eq_sum_window hfit]
  · refine Finset.sum_congr rfl fun k hk => ?_
    have hk' : k < bc.toNat := Finset.mem_range.mp hk
    rw [hbit _ (by omega)]
    simp [hk']
  · intro q hq hout
    rw [hbit q hq]
    simp [hout]

/-! ## The lengths a reset fixes (rules R94, R96, R97) -/

theorem lastLength_cons (c : BufId × Nat) (l : List (BufId × Nat)) (id : BufId) (old : Nat) :
    lastLength (c :: l) id old = lastLength l id (if c.1 = id then c.2 else old) := by
  unfold lastLength
  rw [List.reverse_cons, List.find?_append]
  cases l.reverse.find? (fun e => e.1 == id) with
  | some e => rfl
  | none => by_cases hc : c.1 = id <;> simp [hc]

/-- Fixing lengths in order leaves each buffer the last one named for it. -/
theorem setLengths_eq_lastLength (lens : Vector Nat 16) (l : List (BufId × Nat)) (id : BufId) :
    (setLengths lens l)[id] = lastLength l id lens[id] := by
  induction l generalizing lens with
  | nil => rfl
  | cons c l ih =>
    obtain ⟨named, n⟩ := c
    rw [setLengths_cons, ih, lastLength_cons]
    congr 1
    simp [Vector.getElem_set, Fin.ext_iff]

/-- A buffer named in a reset holds no byte at its new length or beyond (rule R26). -/
theorem lookup_fixLengths_beyond {s : State} {l : List (BufId × Nat)} {id : BufId} (hnamed : ∃ n, (id, n) ∈ l)
    {k : Nat} (hk : (s.fixLengths l).bufLen[id] ≤ k) : (s.fixLengths l).buf[id].lookup k = none := by
  rw [fixLengths_bufLen] at hk
  rw [fixLengths_buf, if_pos (by simpa using hnamed), Memory.lookup_truncate, if_neg (by omega)]

/-- A byte below its buffer's new length, or of a buffer not named, reads as before. -/
theorem byteAt_fixLengths_of_kept {s : State} {l : List (BufId × Nat)} {id : BufId} {k : Nat}
    (h : k < (s.fixLengths l).bufLen[id] ∨ ∀ n, (id, n) ∉ l) :
    (s.fixLengths l).byteAt (.buffer id) k = s.byteAt (.buffer id) k := by
  have hlookup : (s.fixLengths l).buf[id].lookup k = s.buf[id].lookup k := by
    rw [fixLengths_buf]
    by_cases hnamed : id ∈ l.map Prod.fst
    · have hlt : k < (setLengths s.bufLen l)[id] := by
        rcases h with hlt | hnot
        · rwa [fixLengths_bufLen] at hlt
        · exact absurd hnamed (by simpa using hnot)
      rw [if_pos hnamed, Memory.lookup_truncate, if_pos hlt]
    · rw [if_neg hnamed]
  rw [State.byteAt, State.byteAt, hlookup]

/-- Settles O47: the step fixes the lengths and then resets the core, which touches neither lengths nor buffers. -/
theorem resetFixesLengths : Obligations.ResetFixesLengths := by
  unfold Obligations.ResetFixesLengths
  intro s l rest hpending
  refine ⟨((s.setPending rest).fixLengths l).resetCore, step_action hpending, rfl, rfl, rfl, rfl, rfl,
    fun id => ⟨?_, ?_, ?_⟩⟩
  · rw [resetCore_bufLen, fixLengths_bufLen]
    exact setLengths_eq_lastLength s.bufLen l id
  · intro k hk
    exact byteAt_fixLengths_of_kept (s := s.setPending rest) hk
  · intro hnamed k hk
    exact lookup_fixLengths_beyond (s := s.setPending rest) hnamed hk

end Sys2Proof.Machine
end

section
/-! What one step can do (rules R20, R34, R47, R86, R94, R96), the invariant every step keeps (rules R17 to R19, R26), and who
changes which part of the state (rules R15, R16, R22, R25, R33). -/

namespace Sys2Proof.Machine

/-! ## Updates of the state -/

@[simp] theorem resetCore_byteAt_buffer (s : State) (id : BufId) (k : Nat) :
    s.resetCore.byteAt (.buffer id) k = s.byteAt (.buffer id) k := rfl

/-- Writing one of the eight accessor bytes is writing it in the vector. -/
theorem setByte_acc_fin (s : State) (i : Fin 8) (v : Byte) :
    s.setByte .acc i.val v = { s with acc := s.acc.set i v } := by
  have hacc : s.acc.setIfInBounds i.val v = s.acc.set i v := by
    apply Vector.ext
    intro j hj
    rw [Vector.getElem_setIfInBounds, Vector.getElem_set]
  rw [State.setByte, hacc]

/-- A load writes one buffer's memory and no other field. -/
theorem storeBytes_eq (id : BufId) (k : Nat) (bytes : List Byte) (s : State) :
    storeBytes id k bytes s = { s with buf := (storeBytes id k bytes s).buf } := by
  obtain ⟨hacc, hmr, hstate, hcause, hfcmd, hlen, hhost⟩ := storeBytes_fields s id k bytes
  exact State.ext_fields hacc hmr hstate hcause hfcmd hlen rfl hhost

section
variable (id : BufId) (k : Nat) (bytes : List Byte) (s : State)

@[simp] theorem storeBytes_acc : (storeBytes id k bytes s).acc = s.acc := by rw [storeBytes_eq]
@[simp] theorem storeBytes_mr : (storeBytes id k bytes s).mr = s.mr := by rw [storeBytes_eq]
@[simp] theorem storeBytes_stateBit : (storeBytes id k bytes s).stateBit = s.stateBit := by rw [storeBytes_eq]
@[simp] theorem storeBytes_cause : (storeBytes id k bytes s).cause = s.cause := by rw [storeBytes_eq]
@[simp] theorem storeBytes_fcmd : (storeBytes id k bytes s).fcmd = s.fcmd := by rw [storeBytes_eq]
@[simp] theorem storeBytes_bufLen : (storeBytes id k bytes s).bufLen = s.bufLen := by rw [storeBytes_eq]
@[simp] theorem storeBytes_host : (storeBytes id k bytes s).host = s.host := by rw [storeBytes_eq]

end

/-- A load puts each byte of its list at that byte's index. -/
theorem byteAt_load_hit (s : State) (id : BufId) {bytes : List Byte} {j : Nat} (h : j < bytes.length) :
    (storeBytes id 0 bytes s).byteAt (.buffer id) j = bytes[j] := by
  simp [byteAt_storeBytes, h]

/-- A load leaves the bytes of the other buffers and those at or beyond its list's length. -/
theorem byteAt_load_miss (s : State) {id id' : BufId} {bytes : List Byte} {j : Nat}
    (h : ¬ (id' = id ∧ j < bytes.length)) :
    (storeBytes id 0 bytes s).byteAt (.buffer id') j = s.byteAt (.buffer id') j := by
  rw [byteAt_storeBytes]
  split
  · rename_i hin
    obtain ⟨hplace, _⟩ := hin
    cases hplace
    have hbeyond : bytes.length ≤ j := by simpa using h
    simp [hbeyond]
  · rfl

/-! ## Conditions of the commands -/

theorem maskRangeErr_eq_false {start count : Nat} :
    maskRangeErr start count = false ↔ start < 8 ∧ start + count ≤ 8 := by
  simp [maskRangeErr]

theorem copyOutside_eq_false {srcLen dstLen s d n : Nat} :
    copyOutside srcLen dstLen s d n = false ↔ n = 0 ∨ (s + n ≤ 8 * srcLen ∧ d + n ≤ 8 * dstLen) := by
  simp only [copyOutside, Bool.and_eq_false_iff, bne_eq_false_iff_eq, Bool.or_eq_false_iff, rangeOutside_eq_false]

theorem legalAccessorCount_iff {n : Nibble} : legalAccessorCount n = true ↔ 1 ≤ n.toNat ∧ n.toNat ≤ 8 := by
  simp [legalAccessorCount]

/-- The decoder gives no GET or SET with an accessor byte count outside 1 to 8 (rule R44.5). -/
theorem wellFormed_of_decode {cmd : Cmd} {i : Instr} (h : decode cmd = .ok i) : i.wellFormed = true := by
  unfold decode at h
  split_ifs at h <;> cases h
  all_goals simp_all [Instr.wellFormed]

/-! ## What one step can do -/

/-- What a command that is executed can do: raise a fault, or, past the checks of its own rule, complete. Which fault it raises,
and when, is in the inversion lemma of its meaning (`execMask_cases` and the like). -/
inductive ExecsTo (s : State) : Instr → State → Prop
  | faults {i : Instr} (c : FaultCause) : ExecsTo s i (s.raiseFault c (encode i))
  | masks {start count : Nibble} (hrange : maskRangeErr start.toNat count.toNat = false) :
      ExecsTo s (.mask start count) { s with mr := mask start.toNat count.toNat }
  | copies {src dst : BufId} {so d n : Operand}
      (hbounds : copyOutside s.bufLen[src] s.bufLen[dst] so.toNat d.toNat n.toNat = false)
      (hapart : copyOverlaps src dst so.toNat d.toNat n.toNat = false) :
      ExecsTo s (.copy src dst so d n) (copyBits (.buffer src) (.buffer dst) so.toNat d.toNat n.toNat s)
  | gets {buf : BufId} {n : Nibble} {start bc : Operand} (hwidth : widthInvalid n.toNat bc.toNat = false)
      (hbounds : rangeOutside s.bufLen[buf] start.toNat bc.toNat = false) :
      ExecsTo s (.get buf n start bc)
        (copyBits (.buffer buf) .acc start.toNat (accBitStart n.toNat bc.toNat) bc.toNat s.clearAcc)
  | sets {buf : BufId} {n : Nibble} {start bc : Operand} (hwidth : widthInvalid n.toNat bc.toNat = false)
      (hbounds : rangeOutside s.bufLen[buf] start.toNat bc.toNat = false) :
      ExecsTo s (.set buf n start bc)
        (copyBits .acc (.buffer buf) (accBitStart n.toNat bc.toNat) start.toNat bc.toNat s)

theorem execsTo_of_exec {i : Instr} {s t : State} (h : exec i s = .next t) : ExecsTo s i t := by
  cases i with
  | mask start count =>
    rcases execMask_cases start count s with ⟨_, he⟩ | ⟨hrange, he⟩ <;> cases he.symm.trans h
    · exact .faults _
    · exact .masks hrange
  | copy src dst so d n =>
    rcases execCopy_cases src dst so d n s with ⟨_, he⟩ | ⟨_, _, he⟩ | ⟨hbounds, hapart, he⟩ <;> cases he.symm.trans h
    · exact .faults _
    · exact .copies hbounds hapart
  | get buf n start bc =>
    rcases execGet_cases buf n start bc s with ⟨_, he⟩ | ⟨_, _, he⟩ | ⟨hwidth, hbounds, he⟩ <;> cases he.symm.trans h
    · exact .faults _
    · exact .faults _
    · exact .gets hwidth hbounds
  | set buf n start bc =>
    rcases execSet_cases buf n start bc s with ⟨_, he⟩ | ⟨_, _, he⟩ | ⟨hwidth, hbounds, he⟩ <;> cases he.symm.trans h
    · exact .faults _
    · exact .faults _
    · exact .sets hwidth hbounds

/-- What a step that goes on can do: idle with no item left, or take the host's next item and do it. -/
inductive StepsTo (s : State) : State → Prop
  | idle (hp : s.host.pending = []) : StepsTo s s
  | reset {l rest} (hp : s.host.pending = .reset l :: rest) : StepsTo s ((s.setPending rest).fixLengths l).resetCore
  | ignored {cmd rest} (hp : s.host.pending = .issue cmd :: rest) (hfaulted : s.stateBit = 1) :
      StepsTo s (s.setPending rest)
  | illegal {cmd rest e} (hp : s.host.pending = .issue cmd :: rest) (hready : s.stateBit = 0)
      (hdecode : decode cmd = .error e) : StepsTo s ((s.setPending rest).raiseFault .illegalCommand cmd)
  | command {cmd rest i t} (hp : s.host.pending = .issue cmd :: rest) (hready : s.stateBit = 0)
      (hdecode : decode cmd = .ok i) (hexec : ExecsTo (s.setPending rest) i t) : StepsTo s t
  | writeAcc {i v rest} (hp : s.host.pending = .writeAcc i v :: rest) :
      StepsTo s ((s.setPending rest).setByte .acc i.val v)
  | writeByte {id k v rest} (hp : s.host.pending = .writeByte id k v :: rest) (hk : k < s.bufLen[id]) :
      StepsTo s ((s.setPending rest).setByte (.buffer id) k v)
  | loadBuffer {id bytes rest} (hp : s.host.pending = .loadBuffer id bytes :: rest) (hlen : bytes.length ≤ s.bufLen[id]) :
      StepsTo s (storeBytes id 0 bytes (s.setPending rest))
  | read {what rest} (hp : s.host.pending = .read what :: rest) (hreadable : readable what (s.setPending rest) = true) :
      StepsTo s ((s.setPending rest).reply ⟨what, readValue what (s.setPending rest)⟩)

/-! Each host access goes on exactly past its own check, and then with one next state. -/

theorem hostWriteByte_of_lt {s : State} {id : BufId} {k : Nat} (hk : k < s.bufLen[id]) (v : Byte) :
    hostWriteByte id k v s = .next (s.setByte (.buffer id) k v) := if_pos hk

theorem hostLoadBuffer_of_le {s : State} {id : BufId} {bytes : List Byte} (hlen : bytes.length ≤ s.bufLen[id]) :
    hostLoadBuffer id bytes s = .next (storeBytes id 0 bytes s) := if_pos hlen

theorem hostRead_of_readable {s : State} {what : ReadTarget} (h : readable what s = true) :
    hostRead what s = .next (s.reply ⟨what, readValue what s⟩) := if_pos h

theorem hostWriteByte_next {s t : State} {id : BufId} {k : Nat} {v : Byte} (h : hostWriteByte id k v s = .next t) :
    k < s.bufLen[id] ∧ t = s.setByte (.buffer id) k v := by
  unfold hostWriteByte at h
  split at h <;> cases h
  exact ⟨‹_›, rfl⟩

theorem hostLoadBuffer_next {s t : State} {id : BufId} {bytes : List Byte} (h : hostLoadBuffer id bytes s = .next t) :
    bytes.length ≤ s.bufLen[id] ∧ t = storeBytes id 0 bytes s := by
  unfold hostLoadBuffer at h
  split at h <;> cases h
  exact ⟨‹_›, rfl⟩

theorem hostRead_next {s t : State} {what : ReadTarget} (h : hostRead what s = .next t) :
    readable what s = true ∧ t = s.reply ⟨what, readValue what s⟩ := by
  unfold hostRead at h
  split at h <;> cases h
  exact ⟨‹_›, rfl⟩

theorem stepsTo_of_step {s t : State} (h : step s = .next t) : StepsTo s t := by
  cases hp : s.host.pending with
  | nil =>
    cases (step_idle hp).symm.trans h
    exact .idle hp
  | cons a rest =>
    rw [step_action hp] at h
    cases a with
    | reset l =>
      cases h
      exact .reset hp
    | issue cmd =>
      replace h : issue cmd (s.setPending rest) = .next t := h
      rcases BitVec.eq_zero_or_eq_one s.stateBit with hready | hfaulted
      · have hne : (s.setPending rest).stateBit ≠ 1 := by simp [hready]
        cases hdecode : decode cmd with
        | error e =>
          cases (issue_illegal hne hdecode).symm.trans h
          exact .illegal hp hready hdecode
        | ok i => exact .command hp hready hdecode (execsTo_of_exec ((issue_command hne hdecode).symm.trans h))
      · cases (issue_faulted (s := s.setPending rest) hfaulted cmd).symm.trans h
        exact .ignored hp hfaulted
    | writeAcc i v =>
      cases h
      exact .writeAcc hp
    | writeByte id k v =>
      obtain ⟨hk, rfl⟩ := hostWriteByte_next h
      exact .writeByte hp hk
    | loadBuffer id bytes =>
      obtain ⟨hlen, rfl⟩ := hostLoadBuffer_next h
      exact .loadBuffer hp hlen
    | read what =>
      obtain ⟨hreadable, rfl⟩ := hostRead_next h
      exact .read hp hreadable

/-! ## The invariant (rules R17 to R19, R26, R86) -/

theorem recordConsistent_of_eq {s t : State} (h : s.recordConsistent) (hstate : t.stateBit = s.stateBit)
    (hcause : t.cause = s.cause) (hfcmd : t.fcmd = s.fcmd) : t.recordConsistent := by
  simpa only [State.recordConsistent, hstate, hcause, hfcmd] using h

theorem recordConsistent_raiseFault (s : State) (c : FaultCause) (cmd : Cmd) : (s.raiseFault c cmd).recordConsistent := by
  refine .inr ⟨rfl, ?_⟩
  cases c <;> simp [FaultCause.code]

theorem recordConsistent_copyBits {st : State} (h : st.recordConsistent) (src dst : Place) (s d n : Nat) :
    (copyBits src dst s d n st).recordConsistent :=
  recordConsistent_of_eq h (by simp) (by simp) (by simp)

/-- Every command keeps the invariant, completing or faulting. -/
theorem ExecsTo.keeps_inv {s t : State} {i : Instr} (h : ExecsTo s i t) (hs : s.Inv) : t.Inv := by
  obtain ⟨hrecord, hbuffers⟩ := hs
  cases h with
  | faults c => exact ⟨recordConsistent_raiseFault s c _, hbuffers⟩
  | masks _ => exact ⟨hrecord, hbuffers⟩
  | @copies src dst so d n hbounds _ =>
    rcases copyOutside_eq_false.mp hbounds with hzero | ⟨_, hfit⟩
    · rw [hzero, copyBits_zero]
      exact ⟨hrecord, hbuffers⟩
    · exact ⟨recordConsistent_copyBits hrecord _ _ _ _ _, copyBits_buffersWf hbuffers _ _ _ _ _ hfit⟩
  | gets _ _ =>
    refine ⟨recordConsistent_copyBits (st := s.clearAcc) hrecord _ _ _ _ _, ?_⟩
    simpa [State.buffersWf] using hbuffers
  | sets _ hbounds =>
    exact ⟨recordConsistent_copyBits hrecord _ _ _ _ _,
      copyBits_buffersWf hbuffers _ _ _ _ _ (rangeOutside_eq_false.mp hbounds)⟩

/-- Settles O49: each way a step can go on keeps the record consistent and the buffers canonical and within their lengths. -/
theorem stepKeepsInvariant : Obligations.StepKeepsInvariant := by
  unfold Obligations.StepKeepsInvariant
  intro s t hs h
  obtain ⟨hrecord, hbuffers⟩ := hs
  cases stepsTo_of_step h with
  | idle _ => exact ⟨hrecord, hbuffers⟩
  | @reset l rest _ => exact ⟨.inl ⟨rfl, rfl, rfl⟩, fixLengths_buffersWf (s := s.setPending rest) hbuffers l⟩
  | ignored _ _ => exact ⟨hrecord, hbuffers⟩
  | illegal _ _ _ => exact ⟨recordConsistent_raiseFault _ _ _, hbuffers⟩
  | command _ _ _ hexec => exact hexec.keeps_inv ⟨hrecord, hbuffers⟩
  | writeAcc _ => exact ⟨hrecord, hbuffers⟩
  | @writeByte id k v rest _ hk => exact ⟨hrecord, setByte_buffersWf (s := s.setPending rest) hbuffers (.buffer id) k v hk⟩
  | @loadBuffer id bytes rest _ hlen =>
    exact ⟨recordConsistent_of_eq hrecord (by simp) (by simp) (by simp),
      storeBytes_buffersWf (s := s.setPending rest) hbuffers id 0 bytes (by simpa using hlen)⟩
  | read _ _ => exact ⟨hrecord, hbuffers⟩

/-- After reset no buffer lists a byte and the record says READY. -/
theorem resetWith_inv (lens : Vector Nat 16) (program : List HostAction) : (State.resetWith lens program).Inv :=
  ⟨.inl ⟨rfl, rfl, rfl⟩, fun id => by simp [State.resetWith, Memory.wf]⟩

/-- Settles O48: the state after reset lists no buffer byte, and `State.reset` is one of those states. -/
theorem resetMeetsInvariant : Obligations.ResetMeetsInvariant :=
  ⟨resetWith_inv, resetWith_inv _ _, rfl, rfl, rfl, rfl, rfl⟩

/-! ## The host's list (rules R20, R34) -/

/-- No command touches the host's side. -/
theorem ExecsTo.host_eq {s t : State} {i : Instr} (h : ExecsTo s i t) : t.host = s.host := by
  cases h with
  | faults c => rfl
  | masks _ => rfl
  | copies _ _ => exact copyBits_host _ _ _ _ _ _
  | gets _ _ => exact copyBits_host _ _ _ _ _ _
  | sets _ _ => exact copyBits_host _ _ _ _ _ _

/-- Settles O7: whatever the step does besides, it takes the first item off the host's list, and idles on an empty one. -/
theorem stepTakesItemsInOrder : Obligations.StepTakesItemsInOrder := by
  unfold Obligations.StepTakesItemsInOrder
  refine ⟨fun s t h => ?_, fun s hp => step_idle hp⟩
  cases stepsTo_of_step h with
  | idle hp => simp [hp]
  | reset hp => simp [hp]
  | ignored hp _ => simp [hp]
  | illegal hp _ _ => simp [hp]
  | command hp _ _ hexec => simp [hp, hexec.host_eq]
  | writeAcc hp => simp [hp]
  | writeByte hp _ => simp [hp]
  | loadBuffer hp _ => simp [hp]
  | read hp _ => simp [hp]

/-! ## Who writes the registers (rules R15, R16, R25) -/

/-- A command leaves `MR`, or it is a MASK in its domain, which completes. -/
theorem ExecsTo.mr_eq_or_mask {s t : State} {i : Instr} (h : ExecsTo s i t) :
    t.mr = s.mr ∨ ∃ start count, i = .mask start count ∧ start.toNat < 8 ∧ start.toNat + count.toNat ≤ 8 ∧
      t.mr = mask start.toNat count.toNat ∧ t.stateBit = s.stateBit := by
  cases h with
  | faults c => exact .inl rfl
  | masks hrange =>
    obtain ⟨hstart, hend⟩ := maskRangeErr_eq_false.mp hrange
    exact .inr ⟨_, _, rfl, hstart, hend, rfl, rfl⟩
  | copies _ _ => exact .inl (copyBits_mr _ _ _ _ _ _)
  | gets _ _ => exact .inl (copyBits_mr _ _ _ _ _ _)
  | sets _ _ => exact .inl (copyBits_mr _ _ _ _ _ _)

/-- Settles O8: reset and MASK in its domain are the only cases of a step in which `MR` is written. -/
theorem onlyMaskWritesMR : Obligations.OnlyMaskWritesMR := by
  unfold Obligations.OnlyMaskWritesMR
  intro s t h hne
  cases stepsTo_of_step h with
  | reset hp => exact .inl ⟨_, _, hp, rfl⟩
  | command hp hready hdecode hexec =>
    rcases hexec.mr_eq_or_mask with hmr | ⟨start, count, rfl, hstart, hend, hmr, hstate⟩
    · exact absurd hmr hne
    · exact .inr ⟨_, _, start, count, hp, hready, hdecode, hstart, hend, hmr, hstate.trans hready⟩
  | idle _ => exact absurd rfl hne
  | ignored _ _ => exact absurd rfl hne
  | illegal _ _ _ => exact absurd rfl hne
  | writeAcc _ => exact absurd rfl hne
  | writeByte _ _ => exact absurd rfl hne
  | loadBuffer _ _ => exact absurd (storeBytes_mr _ _ _ _) hne
  | read _ _ => exact absurd rfl hne

/-- A command leaves `ACC`, or it is a GET whose width and range are in bounds, which completes. -/
theorem ExecsTo.acc_eq_or_get {s t : State} {i : Instr} (h : ExecsTo s i t) :
    t.acc = s.acc ∨ ∃ buf n start bc, i = .get buf n start bc ∧ widthInvalid n.toNat bc.toNat = false ∧
      rangeOutside s.bufLen[buf] start.toNat bc.toNat = false ∧ t.stateBit = s.stateBit := by
  cases h with
  | faults c => exact .inl rfl
  | masks _ => exact .inl rfl
  | copies _ _ => exact .inl (copyBits_acc _ _ _ _ _ _)
  | gets hwidth hbounds => exact .inr ⟨_, _, _, _, rfl, hwidth, hbounds, copyBits_stateBit _ _ _ _ _ _⟩
  | sets _ _ => exact .inl (copyBits_acc _ _ _ _ _ _)

/-- A GET that decodes and passes its own checks names a legal field (rules R44.5, R63). -/
theorem legalField_of_decode_get {cmd : Cmd} {buf : BufId} {n : Nibble} {start bc : Operand} {s : State}
    (hdecode : decode cmd = .ok (.get buf n start bc)) (hwidth : widthInvalid n.toNat bc.toNat = false)
    (hbounds : rangeOutside s.bufLen[buf] start.toNat bc.toNat = false) :
    legalField buf n.toNat start.toNat bc.toNat s := by
  obtain ⟨hn, hn8⟩ := legalAccessorCount_iff.mp (wellFormed_of_decode hdecode)
  obtain ⟨hbc, hfit⟩ := widthInvalid_eq_false.mp hwidth
  exact ⟨hn, hn8, hbc, hfit, rangeOutside_eq_false.mp hbounds⟩

/-- Settles O9: reset, a host write of `a[i]` and a legal GET are the only cases of a step in which `ACC` is written. -/
theorem onlyGetResetAndHostWriteACC : Obligations.OnlyGetResetAndHostWriteACC := by
  unfold Obligations.OnlyGetResetAndHostWriteACC
  intro s t h hne
  cases stepsTo_of_step h with
  | reset hp => exact .inl ⟨_, _, hp, rfl⟩
  | writeAcc hp => exact .inr (.inl ⟨_, _, _, hp, congrArg State.acc (setByte_acc_fin _ _ _)⟩)
  | command hp hready hdecode hexec =>
    rcases hexec.acc_eq_or_get with hacc | ⟨buf, n, start, bc, rfl, hwidth, hbounds, hstate⟩
    · exact absurd hacc hne
    · exact .inr (.inr ⟨_, _, buf, n, start, bc, hp, hready, hdecode,
        legalField_of_decode_get hdecode hwidth hbounds, hstate.trans hready⟩)
  | idle _ => exact absurd rfl hne
  | ignored _ _ => exact absurd rfl hne
  | illegal _ _ _ => exact absurd rfl hne
  | writeByte _ _ => exact absurd rfl hne
  | loadBuffer _ _ => exact absurd (storeBytes_acc _ _ _ _) hne
  | read _ _ => exact absurd rfl hne

/-! ## Who writes buffer bytes and lengths (rules R22, R33) -/

/-- No command changes a length. -/
theorem ExecsTo.bufLen_eq {s t : State} {i : Instr} (h : ExecsTo s i t) : t.bufLen = s.bufLen := by
  cases h with
  | faults c => rfl
  | masks _ => rfl
  | copies _ _ => exact copyBits_bufLen _ _ _ _ _ _
  | gets _ _ => exact copyBits_bufLen _ _ _ _ _ _
  | sets _ _ => exact copyBits_bufLen _ _ _ _ _ _

/-- A copy into a buffer leaves a buffer byte, or its destination range touches that byte (rule R33). -/
theorem byteAt_copyBits_eq_or_touched {src : Place} {dst : BufId} {so d n : Nat} (h : Apart src (.buffer dst) so d n)
    (s : State) (id : BufId) (k : Nat) :
    (copyBits src (.buffer dst) so d n s).byteAt (.buffer id) k = s.byteAt (.buffer id) k ∨
      (dst = id ∧ touched d n k = true) := by
  refine or_iff_not_imp_right.mpr fun hmiss => copyBits_byteAt_untouched _ _ _ _ _ _ (by simp) h _ _ fun hplace => ?_
  cases hplace
  simpa using hmiss

/-- A command leaves a buffer byte, or it is a COPY or SET whose destination range touches it. -/
theorem ExecsTo.byteAt_eq_or_touched {s t : State} {i : Instr} (h : ExecsTo s i t) (id : BufId) (k : Nat) :
    t.byteAt (.buffer id) k = s.byteAt (.buffer id) k ∨
    (∃ src so d n, i = .copy src id so d n ∧ touched d.toNat n.toNat k = true) ∨
    (∃ n start bc, i = .set id n start bc ∧ touched start.toNat bc.toNat k = true) := by
  cases h with
  | faults c => exact .inl (raiseFault_byteAt _ _ _ _ _)
  | masks _ => exact .inl rfl
  | copies _ hapart =>
    rcases byteAt_copyBits_eq_or_touched (apart_of_not_overlaps hapart) s id k with hsame | ⟨rfl, htouched⟩
    · exact .inl hsame
    · exact .inr (.inl ⟨_, _, _, _, rfl, htouched⟩)
  | gets _ _ => exact .inl (by simp [State.byteAt])
  | @sets buf _ _ _ _ _ =>
    rcases byteAt_copyBits_eq_or_touched (apart_acc_buffer buf _ _ _) s id k with hsame | ⟨rfl, htouched⟩
    · exact .inl hsame
    · exact .inr (.inr ⟨_, _, _, rfl, htouched⟩)

/-- The length a reset leaves a named buffer is one the reset names for it. -/
theorem lastLength_mem {l : List (BufId × Nat)} {id : BufId} (hnamed : ∃ n, (id, n) ∈ l) (old : Nat) :
    (id, lastLength l id old) ∈ l := by
  obtain ⟨n, hn⟩ := hnamed
  unfold lastLength
  cases hfind : l.reverse.find? (fun e => e.1 == id) with
  | none => simpa using List.find?_eq_none.mp hfind (id, n) (List.mem_reverse.mpr hn)
  | some e =>
    have hid : e.1 = id := by simpa using List.find?_some hfind
    subst hid
    exact List.mem_reverse.mp (List.mem_of_find?_eq_some hfind)

/-- A byte that reads otherwise after fixing lengths stands at or beyond a length named for its buffer. -/
theorem exists_length_le_of_byteAt_fixLengths_ne {s : State} {l : List (BufId × Nat)} {id : BufId} {k : Nat}
    (hne : (s.fixLengths l).byteAt (.buffer id) k ≠ s.byteAt (.buffer id) k) : ∃ n, (id, n) ∈ l ∧ n ≤ k := by
  have hlost : ¬ (k < (s.fixLengths l).bufLen[id] ∨ ∀ n, (id, n) ∉ l) := mt byteAt_fixLengths_of_kept hne
  obtain ⟨hlen, hnot⟩ := not_or.mp hlost
  rw [fixLengths_bufLen, setLengths_eq_lastLength, not_lt] at hlen
  exact ⟨_, lastLength_mem (by simpa using hnot) _, hlen⟩

/-- A step that changes a length is a reset that names one. -/
theorem StepsTo.reset_of_bufLen_ne {s t : State} (h : StepsTo s t) (hne : t.bufLen ≠ s.bufLen) :
    ∃ l rest, s.host.pending = .reset l :: rest ∧ l ≠ [] := by
  cases h with
  | @reset l rest hp =>
    refine ⟨l, rest, hp, ?_⟩
    rintro rfl
    exact hne rfl
  | command _ _ _ hexec => exact absurd hexec.bufLen_eq hne
  | idle _ => exact absurd rfl hne
  | ignored _ _ => exact absurd rfl hne
  | illegal _ _ _ => exact absurd rfl hne
  | writeAcc _ => exact absurd rfl hne
  | writeByte _ _ => exact absurd rfl hne
  | loadBuffer _ _ => exact absurd (storeBytes_bufLen _ _ _ _) hne
  | read _ _ => exact absurd rfl hne

/-- Settles O10: in every case of a step a byte reads as before unless the item writes it or fixes a length at or below it. -/
theorem bufferWritersAndLengths : Obligations.BufferWritersAndLengths := by
  unfold Obligations.BufferWritersAndLengths
  intro s t h
  refine ⟨(stepsTo_of_step h).reset_of_bufLen_ne, fun id k hne => ?_⟩
  cases stepsTo_of_step h with
  | @reset l rest hp =>
    exact .inl ⟨l, rest, hp, exists_length_le_of_byteAt_fixLengths_ne (s := s.setPending rest) (by simpa using hne)⟩
  | @writeByte id' k' v rest hp _ =>
    have hhit : id = id' ∧ k = k' := by
      by_contra hmiss
      exact hne (by simp [byteAt_setByte, hmiss])
    obtain ⟨rfl, rfl⟩ := hhit
    exact .inr (.inl ⟨v, rest, hp⟩)
  | @loadBuffer id' bytes rest hp _ =>
    have hhit : id = id' ∧ k < bytes.length := by
      by_contra hmiss
      exact hne (byteAt_load_miss (s.setPending rest) hmiss)
    obtain ⟨rfl, hk⟩ := hhit
    exact .inr (.inr (.inl ⟨bytes, rest, hp, hk⟩))
  | command hp hready hdecode hexec =>
    rcases hexec.byteAt_eq_or_touched id k with hsame | ⟨src, so, d, n, rfl, htouched⟩ | ⟨n, start, bc, rfl, htouched⟩
    · exact absurd (hsame.trans (setPending_byteAt _ _ _ _)) hne
    · exact .inr (.inr (.inr (.inl ⟨_, _, src, so, d, n, hp, hready, hdecode, htouched⟩)))
    · exact .inr (.inr (.inr (.inr ⟨_, _, n, start, bc, hp, hready, hdecode, htouched⟩)))
  | idle _ => exact absurd rfl hne
  | ignored _ _ => exact absurd rfl hne
  | illegal _ _ _ => exact absurd rfl hne
  | writeAcc _ => exact absurd rfl hne
  | read _ _ => exact absurd rfl hne

/-! ## Host reads and writes (rules R25, R94) -/

/-- A host action that is neither a reset nor a command leaves `MR` and the fault record. -/
theorem StepsTo.mr_record_eq_of_access {s t : State} (h : StepsTo s t) (hreset : ∀ l rest, s.host.pending ≠ .reset l :: rest)
    (hissue : ∀ cmd rest, s.host.pending ≠ .issue cmd :: rest) :
    t.mr = s.mr ∧ t.stateBit = s.stateBit ∧ t.cause = s.cause ∧ t.fcmd = s.fcmd := by
  cases h with
  | reset hp => exact absurd hp (hreset _ _)
  | ignored hp _ => exact absurd hp (hissue _ _)
  | illegal hp _ _ => exact absurd hp (hissue _ _)
  | command hp _ _ _ => exact absurd hp (hissue _ _)
  | idle _ => exact ⟨rfl, rfl, rfl, rfl⟩
  | writeAcc _ => exact ⟨rfl, rfl, rfl, rfl⟩
  | writeByte _ _ => exact ⟨rfl, rfl, rfl, rfl⟩
  | loadBuffer _ _ => simp
  | read _ _ => exact ⟨rfl, rfl, rfl, rfl⟩

/-- A read of what the host may read records the value and changes nothing else. -/
theorem step_read {s : State} {what : ReadTarget} {rest : List HostAction} (hp : s.host.pending = .read what :: rest)
    (h : readable what s = true) :
    step s = .next { s with host := ⟨rest, ⟨what, readValue what s⟩ :: s.host.replies⟩ } :=
  (step_action hp).trans (hostRead_of_readable (s := s.setPending rest) h)

/-- Settles O11: each register access is one update of the state, and the others leave the registers. -/
theorem hostRegisterAccess : Obligations.HostRegisterAccess := by
  unfold Obligations.HostRegisterAccess
  refine ⟨fun s rest i v hp => ?_, fun s rest what hp hregister => ⟨?_, ?_⟩, fun s t a rest hp hreset hissue h => ?_⟩
  · rw [step_action hp, doAction, hostWriteAcc, setByte_acc_fin]
    rfl
  · refine step_read hp ?_
    cases what with
    | bufByte id k => exact absurd rfl (hregister id k)
    | accByte i => rfl
    | maskResult => rfl
    | runState => rfl
    | causeCode => rfl
    | faultCmd => rfl
  · refine ⟨?_, ?_, ?_, ?_, ?_⟩
    · rintro i rfl
      rfl
    all_goals
      rintro rfl
      rfl
  · refine (stepsTo_of_step h).mr_record_eq_of_access (fun l rest' hp' => ?_) (fun cmd rest' hp' => ?_)
    · exact hreset l (List.cons.inj (hp.symm.trans hp')).1
    · exact hissue cmd (List.cons.inj (hp.symm.trans hp')).1

/-- Settles O44: a write and a load inside the buffer touch that buffer's memory alone, at the indices they name. -/
theorem hostBufferAccess : Obligations.HostBufferAccess := by
  unfold Obligations.HostBufferAccess
  refine ⟨fun s rest id k v hp hk => ?_, fun s rest id bytes hp hlen => ?_, fun s rest id k hp hk => ?_⟩
  · refine ⟨(s.setPending rest).setByte (.buffer id) k v, ?_, rfl, ?_, fun id' j hmiss => ?_⟩
    · exact (step_action hp).trans (hostWriteByte_of_lt (s := s.setPending rest) hk v)
    · simp [byteAt_setByte]
    · simp [byteAt_setByte, hmiss]
  · refine ⟨storeBytes id 0 bytes (s.setPending rest), ?_, storeBytes_eq _ _ _ _, fun j hj => ?_, fun id' j hmiss => ?_⟩
    · exact (step_action hp).trans (hostLoadBuffer_of_le (s := s.setPending rest) hlen)
    · exact byteAt_load_hit _ _ hj
    · exact byteAt_load_miss (s.setPending rest) hmiss
  · exact step_read hp (decide_eq_true hk)

end Sys2Proof.Machine
end

section
/-! The frames of the two commands that write a buffer: COPY (rules R33, R62) and SET (rules R33, R67). -/

namespace Sys2Proof.Machine

/-- A copy into a buffer writes no field of the state but the buffers. -/
theorem copyBits_buffer_eq (src : Place) (dst : BufId) (so d n : Nat) (s : State) :
    copyBits src (.buffer dst) so d n s = { s with buf := (copyBits src (.buffer dst) so d n s).buf } :=
  State.ext_fields (copyBits_acc _ _ _ _ _ _) (copyBits_mr _ _ _ _ _ _) (copyBits_stateBit _ _ _ _ _ _)
    (copyBits_cause _ _ _ _ _ _) (copyBits_fcmd _ _ _ _ _ _) (copyBits_bufLen _ _ _ _ _ _) rfl
    (copyBits_host _ _ _ _ _ _)

/-- The frame of a copy into a buffer: only that buffer's memory, and of it only bytes the destination range touches. -/
theorem copyBits_buffer_frame {src : Place} {dst : BufId} {so d n : Nat} (h : Apart src (.buffer dst) so d n) (s : State) :
    copyBits src (.buffer dst) so d n s = { s with buf := (copyBits src (.buffer dst) so d n s).buf } ∧
      (∀ id : BufId, id ≠ dst → (copyBits src (.buffer dst) so d n s).buf[id] = s.buf[id]) ∧
      (∀ k, touched d n k = false →
        (copyBits src (.buffer dst) so d n s).byteAt (.buffer dst) k = s.byteAt (.buffer dst) k) :=
  ⟨copyBits_buffer_eq src dst so d n s, fun _ hid => copyBits_buf_ne src hid so d n s,
    fun k hk => copyBits_byteAt_untouched src _ so d n s (by simp) h _ k fun _ => hk⟩

/-- A COPY in bounds that answers a next state has done the copy, its ranges apart (rules R61, R62). -/
theorem exec_copy_next_of_inBounds {src dst : BufId} {so d n : Operand} {s t : State}
    (hbounds : copyInBounds src dst so.toNat d.toNat n.toNat s) (h : exec (.copy src dst so d n) s = .next t) :
    copyOverlaps src dst so.toNat d.toNat n.toNat = false ∧
      t = copyBits (.buffer src) (.buffer dst) so.toNat d.toNat n.toNat s := by
  have hinside := copyOutside_eq_false.mpr hbounds
  rcases execCopy_cases src dst so d n s with ⟨houtside, _⟩ | ⟨_, _, hrefused⟩ | ⟨_, hapart, hcopies⟩
  · cases hinside.symm.trans houtside
  · cases hrefused.symm.trans h
  · cases hcopies.symm.trans h
    exact ⟨hapart, rfl⟩

/-- A legal SET copies the field from bit `pad(bc)` of `ACC` into the buffer. -/
theorem exec_set_of_legalField {buf : BufId} {n : Nibble} {start bc : Operand} {s : State}
    (h : legalField buf n.toNat start.toNat bc.toNat s) :
    exec (.set buf n start bc) s = .next (copyBits .acc (.buffer buf) (pad bc.toNat) start.toNat bc.toNat s) := by
  obtain ⟨_, _, hbc, hwidth, hbounds⟩ := h
  have hw := widthInvalid_eq_false.mpr ⟨hbc, hwidth⟩
  have hr := rangeOutside_eq_false.mpr hbounds
  rcases execSet_cases buf n start bc s with ⟨hw', _⟩ | ⟨_, hr', _⟩ | ⟨_, _, hset⟩
  · cases hw.symm.trans hw'
  · cases hr.symm.trans hr'
  · rw [← accBitStart_eq_pad hwidth]
    exact hset

/-- Settles O19: a COPY in bounds that completes is a copy between ranges that are apart, and has that copy's frame. -/
theorem copyFrame : Obligations.CopyFrame := by
  unfold Obligations.CopyFrame
  intro src dst so d n s t hbounds h
  obtain ⟨hapart, rfl⟩ := exec_copy_next_of_inBounds hbounds h
  exact copyBits_buffer_frame (apart_of_not_overlaps hapart) s

/-- Settles O27: a legal SET is a copy out of `ACC`, which no buffer overlaps, and has that copy's frame. -/
theorem setFrame : Obligations.SetFrame := by
  unfold Obligations.SetFrame
  intro buf n start bc s t hlegal h
  cases (exec_set_of_legalField hlegal).symm.trans h
  exact copyBits_buffer_frame (apart_acc_buffer buf _ _ _) s

end Sys2Proof.Machine
end

section
/-! The command word (rules R40 to R47): the decoder read as the table of rule R43, which words the table selects and which
it leaves illegal, and what issuing a word does. -/

namespace Sys2Proof.Machine

/-! ## The table, row by row, on the fields of a word (rules R40, R43) -/

/-- The word has the fields that the instruction's row of the table asks for. -/
def RowFields (cmd : Cmd) : Instr → Prop
  | .mask start count => fieldOP cmd = 1 ∧ fieldFA cmd = start ∧ fieldFB cmd = count ∧ fieldRSV cmd = 0 ∧
      fieldX cmd = 0 ∧ fieldY cmd = 0 ∧ fieldCNT cmd = 0
  | .copy src dst s d n => fieldOP cmd = 2 ∧ bufIdOfField (fieldFA cmd) = src ∧ bufIdOfField (fieldFB cmd) = dst ∧
      fieldRSV cmd = 0 ∧ fieldX cmd = s ∧ fieldY cmd = d ∧ fieldCNT cmd = n
  | .get buf n start bc => fieldOP cmd = 3 ∧ bufIdOfField (fieldFA cmd) = buf ∧ fieldFB cmd = n ∧
      fieldRSV cmd = 0 ∧ fieldX cmd = start ∧ fieldY cmd = 0 ∧ fieldCNT cmd = bc
  | .set buf n start bc => fieldOP cmd = 4 ∧ bufIdOfField (fieldFA cmd) = buf ∧ fieldFB cmd = n ∧
      fieldRSV cmd = 0 ∧ fieldX cmd = start ∧ fieldY cmd = 0 ∧ fieldCNT cmd = bc

theorem rowFields_encode (i : Instr) : RowFields (encode i) i := by
  cases i with
  | mask start count => exact Laws.EncodedFields.mask start count
  | copy src dst s d n => exact Laws.EncodedFields.copy src dst s d n
  | get buf n start bc => exact Laws.EncodedFields.get buf n start bc
  | set buf n start bc => exact Laws.EncodedFields.set buf n start bc

/-- The fields of a row leave no bit of the word open. -/
theorem encode_of_rowFields {cmd : Cmd} {i : Instr} (h : RowFields cmd i) : encode i = cmd := by
  cases i with
  | mask start count =>
    obtain ⟨hop, rfl, rfl, hrsv, hx, hy, hcnt⟩ := h
    simpa only [encode, hop, hx, hy, hcnt] using packCmd_fields cmd hrsv
  | copy src dst s d n =>
    obtain ⟨hop, rfl, rfl, hrsv, rfl, rfl, rfl⟩ := h
    simpa only [encode, fieldOfBufId_bufIdOfField, hop] using packCmd_fields cmd hrsv
  | get buf n start bc =>
    obtain ⟨hop, rfl, rfl, hrsv, rfl, hy, rfl⟩ := h
    simpa only [encode, fieldOfBufId_bufIdOfField, hop, hy] using packCmd_fields cmd hrsv
  | set buf n start bc =>
    obtain ⟨hop, rfl, rfl, hrsv, rfl, hy, rfl⟩ := h
    simpa only [encode, fieldOfBufId_bufIdOfField, hop, hy] using packCmd_fields cmd hrsv

/-! ## The decoder is the table (rules R43, R44.5, R47) -/

theorem rowFields_of_decode {cmd : Cmd} {i : Instr} (h : decode cmd = .ok i) : RowFields cmd i := by
  unfold decode at h
  split_ifs at h <;> cases h
  all_goals simp_all [RowFields]

theorem decode_of_rowFields {cmd : Cmd} {i : Instr} (hrow : RowFields cmd i) (hwf : i.wellFormed = true) :
    decode cmd = .ok i := by
  cases i with
  | mask start count =>
    obtain ⟨hop, rfl, rfl, hrsv, hx, hy, hcnt⟩ := hrow
    simp [decode, hop, hrsv, hx, hy, hcnt]
  | copy src dst s d n =>
    obtain ⟨hop, rfl, rfl, hrsv, rfl, rfl, rfl⟩ := hrow
    simp [decode, hop, hrsv]
  | get buf n start bc =>
    obtain ⟨hop, rfl, rfl, hrsv, rfl, hy, rfl⟩ := hrow
    have hcount : legalAccessorCount (fieldFB cmd) = true := hwf
    simp [decode, hop, hrsv, hy, hcount]
  | set buf n start bc =>
    obtain ⟨hop, rfl, rfl, hrsv, rfl, hy, rfl⟩ := hrow
    have hcount : legalAccessorCount (fieldFB cmd) = true := hwf
    simp [decode, hop, hrsv, hy, hcount]

theorem decode_eq_ok_iff {cmd : Cmd} {i : Instr} :
    decode cmd = .ok i ↔ RowFields cmd i ∧ i.wellFormed = true :=
  ⟨fun h => ⟨rowFields_of_decode h, wellFormed_of_decode h⟩, fun ⟨hrow, hwf⟩ => decode_of_rowFields hrow hwf⟩

/-- Settles O1: an encoded instruction has the fields of its row, and the decoder is the table. -/
theorem decodeOfEncode : Obligations.DecodeOfEncode := by
  unfold Obligations.DecodeOfEncode
  intro i hwf
  exact decode_of_rowFields (rowFields_encode i) hwf

/-- Settles O2: a word that decodes has the fields of its instruction's row, which fix every bit. -/
theorem encodeOfDecode : Obligations.EncodeOfDecode := by
  unfold Obligations.EncodeOfDecode
  intro cmd i h
  exact ⟨encode_of_rowFields (rowFields_of_decode h), wellFormed_of_decode h⟩

/-! ## The match and mask columns (rule R43) -/

theorem eq_packCmd_iff {cmd : Cmd} {op fa fb : Nibble} {x y cnt : Operand} :
    cmd = packCmd op fa fb x y cnt ↔ fieldOP cmd = op ∧ fieldFA cmd = fa ∧ fieldFB cmd = fb ∧ fieldRSV cmd = 0 ∧
      fieldX cmd = x ∧ fieldY cmd = y ∧ fieldCNT cmd = cnt := by
  constructor
  · rintro rfl
    simp
  · rintro ⟨rfl, rfl, rfl, hrsv, rfl, rfl, rfl⟩
    exact (packCmd_fields cmd hrsv).symm

section
variable (cmd m : Cmd)

@[simp] theorem fieldOP_and : fieldOP (cmd &&& m) = fieldOP cmd &&& fieldOP m := BitVec.extractLsb'_and
@[simp] theorem fieldFA_and : fieldFA (cmd &&& m) = fieldFA cmd &&& fieldFA m := BitVec.extractLsb'_and
@[simp] theorem fieldFB_and : fieldFB (cmd &&& m) = fieldFB cmd &&& fieldFB m := BitVec.extractLsb'_and
@[simp] theorem fieldRSV_and : fieldRSV (cmd &&& m) = fieldRSV cmd &&& fieldRSV m := BitVec.extractLsb'_and
@[simp] theorem fieldX_and : fieldX (cmd &&& m) = fieldX cmd &&& fieldX m := BitVec.extractLsb'_and
@[simp] theorem fieldY_and : fieldY (cmd &&& m) = fieldY cmd &&& fieldY m := BitVec.extractLsb'_and
@[simp] theorem fieldCNT_and : fieldCNT (cmd &&& m) = fieldCNT cmd &&& fieldCNT m := BitVec.extractLsb'_and

end

/-- Every mask of the table covers `OP` and `RSV` and leaves `FA` and `FB` open; the rows differ in what it has at `X`, `Y` and
`CNT`, and every match word is an `OP` alone. -/
theorem and_eq_match_iff {cmd m : Cmd} {op : Nibble} (mx my mcnt : Operand)
    (hm : fieldOP m = .allOnes 4 ∧ fieldFA m = 0 ∧ fieldFB m = 0 ∧ fieldRSV m = .allOnes 20 ∧ fieldX m = mx ∧
      fieldY m = my ∧ fieldCNT m = mcnt) :
    cmd &&& m = packCmd op 0 0 0 0 0 ↔ fieldOP cmd = op ∧ fieldRSV cmd = 0 ∧ fieldX cmd &&& mx = 0 ∧
      fieldY cmd &&& my = 0 ∧ fieldCNT cmd &&& mcnt = 0 := by
  obtain ⟨hop, hfa, hfb, hrsv, rfl, rfl, rfl⟩ := hm
  simp [-BitVec.reduceAllOnes, eq_packCmd_iff, hop, hfa, hfb, hrsv]

theorem and_maskRow_iff {cmd : Cmd} : cmd &&& 0xFFFFFFFFFFFFFFFFFFFFFFFFFFFFF00F#128 = 1#128 ↔
    fieldOP cmd = 1 ∧ fieldRSV cmd = 0 ∧ fieldX cmd = 0 ∧ fieldY cmd = 0 ∧ fieldCNT cmd = 0 := by
  rw [show 1#128 = packCmd 1 0 0 0 0 0 by decide, and_eq_match_iff (.allOnes 32) (.allOnes 32) (.allOnes 32) (by decide)]
  simp only [BitVec.and_allOnes]

theorem and_copyRow_iff {cmd : Cmd} : cmd &&& 0x000000000000000000000000FFFFF00F#128 = 2#128 ↔
    fieldOP cmd = 2 ∧ fieldRSV cmd = 0 := by
  rw [show 2#128 = packCmd 2 0 0 0 0 0 by decide, and_eq_match_iff 0 0 0 (by decide)]
  simp

/-- The rows GET and SET have one mask. -/
theorem and_fieldRow_iff {cmd : Cmd} {op : Nibble} :
    cmd &&& 0x00000000FFFFFFFF00000000FFFFF00F#128 = packCmd op 0 0 0 0 0 ↔
      fieldOP cmd = op ∧ fieldRSV cmd = 0 ∧ fieldY cmd = 0 := by
  rw [and_eq_match_iff 0 (.allOnes 32) 0 (by decide)]
  simp [-BitVec.reduceAllOnes]

/-- Settles O3: the decoder is the table on fields, and the mask and match of a row compare exactly the fields it fixes. -/
theorem rowsSelectByMatchAndMask : Obligations.RowsSelectByMatchAndMask := by
  unfold Obligations.RowsSelectByMatchAndMask
  intro cmd
  refine ⟨?_, ?_, ?_, ?_⟩
  · simp [decode_eq_ok_iff, and_maskRow_iff, RowFields, Instr.wellFormed]
  · simp [decode_eq_ok_iff, and_copyRow_iff, RowFields, Instr.wellFormed]
  · rw [decode_eq_ok_iff, show 3#128 = packCmd 3 0 0 0 0 0 by decide, and_fieldRow_iff]
    simp [RowFields, Instr.wellFormed, legalAccessorCount_iff]
  · rw [decode_eq_ok_iff, show 4#128 = packCmd 4 0 0 0 0 0 by decide, and_fieldRow_iff]
    simp [RowFields, Instr.wellFormed, legalAccessorCount_iff]

/-! ## The words no row selects (rule R44) -/

theorem illegalWord_eq_true {cmd : Cmd} : illegalWord cmd = true ↔
    (fieldOP cmd).toNat = 0 ∨ 5 ≤ (fieldOP cmd).toNat ∨ fieldRSV cmd ≠ 0 ∨
      (fieldOP cmd = 1 ∧ (fieldX cmd ≠ 0 ∨ fieldY cmd ≠ 0 ∨ fieldCNT cmd ≠ 0)) ∨
      ((fieldOP cmd = 3 ∨ fieldOP cmd = 4) ∧ fieldY cmd ≠ 0) ∨
      ((fieldOP cmd = 3 ∨ fieldOP cmd = 4) ∧ (fieldFB cmd = 0 ∨ 9 ≤ (fieldFB cmd).toNat)) := by
  simp [illegalWord, ← BitVec.toNat_inj, or_assoc]

/-- What is left of the words: one of the four opcodes, with what its row asks of the fields. -/
theorem illegalWord_eq_false {cmd : Cmd} : illegalWord cmd = false ↔
    fieldRSV cmd = 0 ∧ ((fieldOP cmd = 1 ∧ fieldX cmd = 0 ∧ fieldY cmd = 0 ∧ fieldCNT cmd = 0) ∨ fieldOP cmd = 2 ∨
      ((fieldOP cmd = 3 ∨ fieldOP cmd = 4) ∧ fieldY cmd = 0 ∧ legalAccessorCount (fieldFB cmd) = true)) := by
  rw [← Bool.not_eq_true, illegalWord_eq_true, legalAccessorCount_iff]
  simp [← BitVec.toNat_inj]
  omega

/-- A word is a command exactly when rule R44 does not make it illegal. -/
theorem exists_decode_iff {cmd : Cmd} : (∃ i, decode cmd = .ok i) ↔ illegalWord cmd = false := by
  rw [illegalWord_eq_false]
  constructor
  · rintro ⟨i, h⟩
    obtain ⟨hrow, hwf⟩ := decode_eq_ok_iff.mp h
    cases i with
    | mask start count =>
      obtain ⟨hop, -, -, hrsv, hfields⟩ := hrow
      exact ⟨hrsv, .inl ⟨hop, hfields⟩⟩
    | copy src dst s d n =>
      obtain ⟨hop, -, -, hrsv, -⟩ := hrow
      exact ⟨hrsv, .inr (.inl hop)⟩
    | get buf n start bc =>
      obtain ⟨hop, -, rfl, hrsv, -, hy, -⟩ := hrow
      exact ⟨hrsv, .inr (.inr ⟨.inl hop, hy, hwf⟩)⟩
    | set buf n start bc =>
      obtain ⟨hop, -, rfl, hrsv, -, hy, -⟩ := hrow
      exact ⟨hrsv, .inr (.inr ⟨.inr hop, hy, hwf⟩)⟩
  · rintro ⟨hrsv, ⟨hop, hfields⟩ | hop | ⟨hop | hop, hy, hcount⟩⟩
    · exact ⟨.mask _ _, decode_of_rowFields ⟨hop, rfl, rfl, hrsv, hfields⟩ rfl⟩
    · exact ⟨.copy _ _ _ _ _, decode_of_rowFields ⟨hop, rfl, rfl, hrsv, rfl, rfl, rfl⟩ rfl⟩
    · exact ⟨.get _ _ _ _, decode_of_rowFields ⟨hop, rfl, rfl, hrsv, rfl, hy, rfl⟩ hcount⟩
    · exact ⟨.set _ _ _ _, decode_of_rowFields ⟨hop, rfl, rfl, hrsv, rfl, hy, rfl⟩ hcount⟩

/-! ## Issuing a word (rules R44, R47) -/

/-- On a READY core the five conditions decide between fault entry and execution. -/
theorem issue_of_illegalWord {s : State} (hready : s.stateBit ≠ 1) {cmd : Cmd} (hillegal : illegalWord cmd = true) :
    issue cmd s = .next (s.raiseFault .illegalCommand cmd) := by
  cases hdecode : decode cmd with
  | error e => exact issue_illegal hready hdecode
  | ok i => cases hillegal.symm.trans (exists_decode_iff.mp ⟨i, hdecode⟩)

/-- Settles O4: the five conditions are `illegalWord`, which holds exactly of the words that do not decode. -/
theorem illegalWordsRaiseIllegalCommand : Obligations.IllegalWordsRaiseIllegalCommand := by
  unfold Obligations.IllegalWordsRaiseIllegalCommand
  intro cmd s hstate
  have hready : s.stateBit ≠ 1 := by simp [hstate]
  rw [← illegalWord_eq_true, Bool.not_eq_true, ← exists_decode_iff]
  exact ⟨issue_of_illegalWord hready, fun ⟨i, hdecode⟩ => ⟨i, hdecode, issue_command hready hdecode⟩⟩

/-- Settles O6: the step takes the word off the host's list and issues it, and a READY core runs what it decodes to. -/
theorem stepRunsDecodedCommand : Obligations.StepRunsDecodedCommand := by
  unfold Obligations.StepRunsDecodedCommand
  intro s cmd rest i hp hready hdecode
  have hnext : (s.setPending rest).stateBit ≠ 1 := by simp [hready]
  exact ⟨wellFormed_of_decode hdecode, (step_action hp).trans (issue_command hnext hdecode)⟩

end Sys2Proof.Machine
end

section
/-! The mask generator (rules R48 to R52): the number `Mask` is, the table of its values, and the two outcomes of MASK. -/

namespace Sys2Proof.Machine

/-! ## The function (rules R48, R52) -/

theorem mask_eq_ofNat {start count : Nat} (hs : start < 8) (hc : start + count ≤ 8) :
    mask start count = BitVec.ofNat 8 ((2 ^ count - 1) * 2 ^ (8 - start - count)) := by
  simp [mask, hs, hc]

/-- Rule R48's second form: no bit of the product is lost in a byte. -/
theorem toNat_mask {start count : Nat} (hs : start < 8) (hc : start + count ≤ 8) :
    (mask start count).toNat = (2 ^ count - 1) * 2 ^ (8 - start - count) := by
  have hfits : (2 ^ count - 1) * 2 ^ (8 - start - count) < 2 ^ 8 :=
    calc (2 ^ count - 1) * 2 ^ (8 - start - count)
        < 2 ^ count * 2 ^ (8 - start - count) :=
          Nat.mul_lt_mul_of_pos_right (Nat.sub_one_lt (Nat.two_pow_pos count).ne') (Nat.two_pow_pos _)
      _ = 2 ^ (8 - start) := by rw [← Nat.pow_add]; congr 1; omega
      _ ≤ 2 ^ 8 := Nat.pow_le_pow_right (by omega) (by omega)
  rw [mask_eq_ofNat hs hc, BitVec.toNat_ofNat, Nat.mod_eq_of_lt hfits]

/-- `b & Mask` keeps the bits the mask covers and zeroes the rest (rule R52, first law). -/
theorem msb_and_mask (b : Byte) {start count : Nat} (hs : start < 8) (hc : start + count ≤ 8) {i : Nat} (hi : i < 8) :
    msb (b &&& mask start count) i = (decide (start ≤ i ∧ i < start + count) && msb b i) := by
  rw [msb_and, msb_mask hs hc hi, Bool.and_comm]

/-- `b & ~Mask` zeroes the bits the mask covers and keeps the rest (rule R52, second law). -/
theorem msb_and_not_mask (b : Byte) {start count : Nat} (hs : start < 8) (hc : start + count ≤ 8) {i : Nat} (hi : i < 8) :
    msb (b &&& ~~~ mask start count) i = (!decide (start ≤ i ∧ i < start + count) && msb b i) := by
  rw [msb_and, msb_not _ hi, msb_mask hs hc hi, Bool.and_comm]

/-- Settles O12: each form of `Mask` is a lemma of its own. -/
theorem maskIsContiguousOnes : Obligations.MaskIsContiguousOnes := by
  unfold Obligations.MaskIsContiguousOnes
  intro start count hs hc
  exact ⟨fun _ hi => msb_mask hs hc hi, toNat_mask hs hc⟩

/-! ## The unit and the command (rules R49, R50) -/

theorem maskRangeErr_eq_true {start count : Nat} :
    maskRangeErr start count = true ↔ 8 ≤ start ∨ 8 < start + count := by
  simp [maskRangeErr]

/-- Settles O13: `range_err` is the condition of MASK_RANGE, and the mask output is `Mask` itself. -/
theorem maskUnitPorts : Obligations.MaskUnitPorts := by
  unfold Obligations.MaskUnitPorts
  intro start count
  exact ⟨maskRangeErr_eq_true, fun _ => rfl⟩

/-- MASK on the domain of `Mask` completes. -/
theorem exec_mask_of_inDomain {start count : Nibble} (hs : start.toNat < 8) (hc : start.toNat + count.toNat ≤ 8) (s : State) :
    exec (.mask start count) s = .next { s with mr := mask start.toNat count.toNat } := by
  have hrange := maskRangeErr_eq_false.mpr ⟨hs, hc⟩
  rcases execMask_cases start count s with ⟨herr, _⟩ | ⟨_, hmask⟩
  · cases hrange.symm.trans herr
  · exact hmask

/-- MASK outside the domain of `Mask` takes the fault. -/
theorem exec_mask_of_outside {start count : Nibble} (h : 8 ≤ start.toNat ∨ 8 < start.toNat + count.toNat) (s : State) :
    exec (.mask start count) s = .next (s.raiseFault .maskRange (encode (.mask start count))) := by
  have herr := maskRangeErr_eq_true.mpr h
  rcases execMask_cases start count s with ⟨_, hfault⟩ | ⟨hrange, _⟩
  · exact hfault
  · cases herr.symm.trans hrange

/-- Settles O14: the two outcomes of MASK, with `Mask` as a number and the fault entry written out. -/
theorem maskCommandResult : Obligations.MaskCommandResult := by
  unfold Obligations.MaskCommandResult
  intro start count s
  refine ⟨fun hs hc => ?_, fun h => exec_mask_of_outside h s⟩
  rw [exec_mask_of_inDomain hs hc, mask_eq_ofNat hs hc]

/-! ## The complete table (rule R52) -/

/-- The table is rule R48's number, row by row and column by column. -/
theorem maskTable_eq_map : maskTable =
    (List.range 8).map fun start => (List.range (9 - start)).map fun count => (2 ^ count - 1) * 2 ^ (8 - start - count) := by
  decide

/-- The entry of a pair is `Mask` of it, and there is none exactly outside the domain of `Mask`. -/
theorem maskTable_entry (start count : Nat) :
    (maskTable[start]?.bind fun row => row[count]?) =
      if start < 8 ∧ start + count ≤ 8 then some (mask start count).toNat else none := by
  rw [maskTable_eq_map, List.getElem?_map]
  split
  next h =>
    obtain ⟨hs, hc⟩ := h
    simp [toNat_mask hs hc, hs, show count < 9 - start by omega]
  next h =>
    by_cases hs : start < 8
    · simp [hs, show 9 - start ≤ count by omega]
    · simp [show 8 ≤ start by omega]

/-- Settles O15: a pair has an entry exactly on the domain of `Mask`, where MASK completes with it and outside which it
faults; the byte laws are the bits of `Mask` in a conjunction. -/
theorem maskTableAndLaws : Obligations.MaskTableAndLaws := by
  unfold Obligations.MaskTableAndLaws
  refine ⟨maskTable_entry, fun start count s => ?_, fun b start count hs hc i hi =>
    ⟨msb_and_mask b hs hc hi, msb_and_not_mask b hs hc hi⟩⟩
  rw [maskTable_entry]
  by_cases h : start.toNat < 8 ∧ start.toNat + count.toNat ≤ 8
  · obtain ⟨hs, hc⟩ := h
    rw [exec_mask_of_inDomain hs hc]
    simp [hs, hc]
  · have hexec := exec_mask_of_outside (show 8 ≤ start.toNat ∨ 8 < start.toNat + count.toNat by omega) s
    rw [if_neg h]
    exact ⟨fun _ hentry => (nomatch hentry), fun _ => ⟨_, hexec, rfl, rfl⟩⟩

end Sys2Proof.Machine
end

section
/-! The bit_copier_engine (rules R53 to R62): one chunk on its two bytes, the iterations of the loop, the bits a copy moves, when
COPY is refused, and which steps stop. -/

namespace Sys2Proof.Machine

/-! ## One chunk (rules R54, R56) -/

/-- A chunk writes its destination byte and no other. -/
theorem copyChunk_byteAt_of_ne {src dst : Place} {s d c : Nat} (st : State) (hacc : dst = .acc → d / 8 < 8) {q : Place}
    {k : Nat} (hne : ¬ (q = dst ∧ k = d / 8)) : (copyChunk src dst s d c st).byteAt q k = st.byteAt q k := by
  simp [copyChunk, byteAt_setByte _ dst _ _ hacc, hne]

/-- The destination byte after a chunk, from the two bytes the chunk reads; where they are one byte, the source bits are read
after the destination bits have been cleared (rule R53, steps c and d). -/
theorem copyChunk_byteAt_dst {src dst : Place} {s d c : Nat} (st : State) (hacc : dst = .acc → d / 8 < 8) :
    (copyChunk src dst s d c st).byteAt dst (d / 8) =
      (st.byteAt dst (d / 8) &&& ~~~ mask (d % 8) c) |||
        reposition ((if src = dst ∧ s / 8 = d / 8 then st.byteAt dst (d / 8) &&& ~~~ mask (d % 8) c
          else st.byteAt src (s / 8)) &&& mask (s % 8) c) (s % 8) (d % 8) := by
  simp [copyChunk, byteAt_setByte _ dst _ _ hacc]

/-- Settles O16: the chunk size is a minimum of what is left of the source byte, of the destination byte and of the range, and
the byte a chunk leaves is a function of the two bytes it reads. -/
theorem chunkStaysInOneByte : Obligations.ChunkStaysInOneByte := by
  unfold Obligations.ChunkStaysInOneByte
  refine ⟨fun s d r hr => ?_, fun src dst s d c st hd q k hne => ?_, fun src dst s d c st st' hd hsrc hdst => ?_⟩
  · have hsrc := chunkSize_src s d r
    exact ⟨chunkSize_pos hr, by omega, hsrc, chunkSize_dst s d r⟩
  · exact copyChunk_byteAt_of_ne st (fun h => Nat.div_lt_of_lt_mul (hd h)) hne
  · have hacc : dst = .acc → d / 8 < 8 := fun h => Nat.div_lt_of_lt_mul (hd h)
    rw [copyChunk_byteAt_dst st hacc, copyChunk_byteAt_dst st' hacc, hsrc, hdst]

/-- The extracted chunk at the destination's alignment: the source's bits in the chunk, 0 outside. -/
theorem msb_reposition_extracted (b : Byte) {sb db c : Nat} (hs : sb < 8) (hsc : sb + c ≤ 8) {i : Nat} (hi : i < 8) :
    msb (reposition (b &&& mask sb c) sb db) i = (decide (db ≤ i ∧ i < db + c) && msb b (i + sb - db)) := by
  rw [msb_reposition _ _ _ hi]
  by_cases hin : i + sb - db < 8
  · rw [msb_and_mask b hs hsc hin, ← Bool.and_assoc, ← Bool.decide_and]
    congr 2
    apply propext
    omega
  · simp [msb_eq_false (show 8 ≤ i + sb - db by omega)]

/-- Settles O17: the bits of the extracted, the shifted and the merged byte, each by its own lemma. -/
theorem shiftLosesNothing : Obligations.ShiftLosesNothing := by
  unfold Obligations.ShiftLosesNothing
  intro old src sb db c hs hd _ hsc hdc
  refine ⟨fun i hi hbit => ?_, fun j hj => ?_, byte_ext fun i hi => ?_, fun i hi => ?_⟩
  · rw [msb_and_mask src hs hsc hi] at hbit
    exact of_decide_eq_true (Bool.and_eq_true_iff.mp hbit).1
  · rw [msb_reposition_extracted src hs hsc (by omega), show db + j + sb - db = sb + j by omega]
    simp [hj]
  · rw [msb_and_not_mask _ hd hdc hi, msb_reposition_extracted src hs hsc hi, ← Bool.and_assoc, Bool.not_and_self]
    simp [msb]
  · rw [msb_mergeChunk old src hs hd hsc hdc hi]
    split
    · rw [show i + sb - db = sb + (i - db) by omega]
    · rfl

/-! ## The iterations of the loop (rules R58, R59) -/

/-- A chunk starts `k` bits into a copy: at its first bit, and wherever the source or the destination enters a new byte. -/
abbrev ChunkStart (s d k : Nat) : Prop := k = 0 ∨ (s + k) % 8 = 0 ∨ (d + k) % 8 = 0

/-- Within the first chunk only its first bit starts one. -/
theorem count_chunkStart_chunkSize {s d r : Nat} (hr : 0 < r) : Nat.count (ChunkStart s d) (chunkSize s d r) = 1 := by
  have hsrc := chunkSize_src s d r
  have hdst := chunkSize_dst s d r
  obtain ⟨m, hm⟩ : ∃ m, chunkSize s d r = m + 1 := ⟨_, (Nat.sub_add_cancel (chunkSize_pos hr)).symm⟩
  rw [hm, Nat.count_succ', if_pos (.inl rfl), Nat.count_of_forall_not]
  intro k hk
  omega

/-- A chunk that leaves bits over ends where the source or the destination enters a new byte. -/
theorem chunkStart_chunkSize {s d r : Nat} (h : chunkSize s d r < r) : ChunkStart s d (chunkSize s d r) := by
  simp only [chunkSize] at h ⊢
  omega

/-- After the first chunk the chunk starts are those of the copy that is left. -/
theorem chunkStart_chunkSize_add {s d r k : Nat} (hk : k < r - chunkSize s d r) :
    ChunkStart s d (chunkSize s d r + k) ↔ ChunkStart (s + chunkSize s d r) (d + chunkSize s d r) k := by
  have hstart := chunkStart_chunkSize (show chunkSize s d r < r by omega)
  simp only [ChunkStart, ← Nat.add_assoc] at hstart ⊢
  by_cases hzero : k = 0
  · subst hzero
    simpa using hstart
  · simp [hzero]

/-- Predicates that agree below `n` hold equally often there. -/
theorem count_congr {p q : Nat → Prop} [DecidablePred p] [DecidablePred q] {n : Nat} (h : ∀ k, k < n → (p k ↔ q k)) :
    Nat.count p n = Nat.count q n :=
  le_antisymm (Nat.count_mono_left fun k hk => (h k hk).mp) (Nat.count_mono_left fun k hk => (h k hk).mpr)

/-- The chunk starts of a copy are the first bit and the chunk starts of what the first chunk leaves over. -/
theorem count_chunkStart_step {s d r : Nat} (hr : 0 < r) :
    Nat.count (ChunkStart s d) r =
      1 + Nat.count (ChunkStart (s + chunkSize s d r) (d + chunkSize s d r)) (r - chunkSize s d r) :=
  calc Nat.count (ChunkStart s d) r
      = Nat.count (ChunkStart s d) (chunkSize s d r + (r - chunkSize s d r)) := by
        rw [Nat.add_sub_cancel' (chunkSize_le s d r)]
    _ = 1 + Nat.count (fun k => ChunkStart s d (chunkSize s d r + k)) (r - chunkSize s d r) := by
        rw [Nat.count_add, count_chunkStart_chunkSize hr]
    _ = _ := by rw [count_congr fun k hk => chunkStart_chunkSize_add hk]

/-- The loop makes one iteration for each chunk start in the range. -/
theorem copyIterations_eq_count {f s d r : Nat} (hf : r ≤ f) : copyIterations f s d r = Nat.count (ChunkStart s d) r := by
  induction f generalizing s d r with
  | zero => simp [copyIterations, Nat.le_zero.mp hf]
  | succ f ih =>
    rw [copyIterations]
    split
    next hzero => simp [hzero]
    next hr =>
      have hpos : 0 < chunkSize s d r := chunkSize_pos (by omega)
      rw [count_chunkStart_step (s := s) (d := d) (by omega), ih (by omega)]

/-- After the first bit a chunk starts where one of the two sides enters a new byte. -/
theorem count_chunkStart_succ (s d m : Nat) : Nat.count (ChunkStart s d) (m + 1) =
    1 + Nat.count (fun k => (s + (k + 1)) % 8 = 0 ∨ (d + (k + 1)) % 8 = 0) m := by
  rw [Nat.count_succ', if_pos (.inl rfl), Nat.add_comm]
  simp [ChunkStart]

/-- How often a range of bits enters a new byte. -/
theorem count_byteStart (p m : Nat) : Nat.count (fun k => (p + (k + 1)) % 8 = 0) m = (p + m) / 8 - p / 8 := by
  induction m with
  | zero => simp
  | succ m ih =>
    rw [Nat.count_succ, ih]
    split <;> omega

/-- A disjunction holds at most as often as its two sides do in sum. -/
theorem count_or_le (p q : Nat → Prop) [DecidablePred p] [DecidablePred q] (m : Nat) :
    Nat.count (fun k => p k ∨ q k) m ≤ Nat.count p m + Nat.count q m := by
  simp only [Nat.count_eq_card_filter_range, Finset.filter_or]
  exact Finset.card_union_le _ _

/-- The chunk starts after the first bit are the `k` that rule R58 counts. -/
theorem count_chunkStart_eq_filter {s d n : Nat} (hn : 1 ≤ n) : Nat.count (ChunkStart s d) n =
    1 + ((List.range n).filter fun k => 0 < k && ((s + k) % 8 == 0 || (d + k) % 8 == 0)).length := by
  obtain ⟨m, rfl⟩ := Nat.exists_eq_add_of_le' hn
  rw [count_chunkStart_succ, Nat.count, List.countP_eq_length_filter, List.range_succ_eq_map]
  simp [List.filter_map, Function.comp_def, beq_eq_decide]

/-- Each side enters at most one new byte in eight bits. -/
theorem count_chunkStart_le {s d n : Nat} (hn : 1 ≤ n) : Nat.count (ChunkStart s d) n ≤ 1 + 2 * ((n - 1 + 7) / 8) := by
  obtain ⟨m, rfl⟩ := Nat.exists_eq_add_of_le' hn
  have hsum := count_or_le (fun k => (s + (k + 1)) % 8 = 0) (fun k => (d + (k + 1)) % 8 = 0) m
  rw [count_byteStart, count_byteStart] at hsum
  rw [count_chunkStart_succ]
  omega

/-- At equal alignment both sides enter their new bytes together, so there is one chunk for each touched byte. -/
theorem count_chunkStart_aligned {s d n : Nat} (hn : 1 ≤ n) (h : s % 8 = d % 8) :
    Nat.count (ChunkStart s d) n = (s + n - 1) / 8 - s / 8 + 1 := by
  obtain ⟨m, rfl⟩ := Nat.exists_eq_add_of_le' hn
  have hside : Nat.count (fun k => (s + (k + 1)) % 8 = 0 ∨ (d + (k + 1)) % 8 = 0) m =
      Nat.count (fun k => (s + (k + 1)) % 8 = 0) m := count_congr fun k _ => by omega
  rw [count_chunkStart_succ, hside, count_byteStart, Nat.add_comm, ← Nat.add_assoc, Nat.add_sub_cancel]

/-- Settles O20: the iterations are the chunk starts of the range, whatever fuel there is beyond it. -/
theorem copyLoopEnds : Obligations.CopyLoopEnds := by
  unfold Obligations.CopyLoopEnds
  refine ⟨fun s d r hr => ?_, fun s d n hn => ?_, fun src dst s d n extra st => ⟨?_, ?_⟩⟩
  · have hsrc := chunkSize_src s d r
    exact ⟨chunkSize_pos hr, by omega⟩
  · rw [copyIterations_eq_count (Nat.le_refl n)]
    exact ⟨count_chunkStart_eq_filter hn, count_chunkStart_le hn, count_chunkStart_aligned hn⟩
  · exact copyLoop_fuel _ _ _ _ _ _ _ (Nat.le_add_right n extra)
  · rw [copyIterations_eq_count (Nat.le_add_right n extra), copyIterations_eq_count (Nat.le_refl n)]

/-! ## The bits a copy moves (rules R57, R60) -/

/-- Two places of which no byte is touched on both sides are apart (rule R61). -/
theorem apart_of_not_touching {src dst : Place} {s d n : Nat}
    (h : ¬ (src = dst ∧ 1 ≤ n ∧ s / 8 ≤ (d + n - 1) / 8 ∧ d / 8 ≤ (s + n - 1) / 8)) : Apart src dst s d n := by
  intro hplace i j hi hj hbyte
  exact h ⟨hplace, by omega, by omega, by omega⟩

/-- The specification of `CopyBits` as rule R57 words it: the bits of the range, and every other bit. -/
theorem copyBits_moves_range {src dst : Place} {s d n : Nat} (st : State) (hacc : dst = .acc → d + n ≤ 64)
    (h : Apart src dst s d n) :
    (∀ k, k < n → (copyBits src dst s d n st).bitAt dst (d + k) = st.bitAt src (s + k)) ∧
    (∀ (q : Place) (p : Nat), ¬ (q = dst ∧ d ≤ p ∧ p < d + n) →
      (copyBits src dst s d n st).bitAt q p = st.bitAt q p) := by
  refine ⟨fun k hk => ?_, fun q p hout => ?_⟩
  · rw [copyBits_bitAt _ _ _ _ _ _ hacc h, if_pos ⟨rfl, by omega, by omega⟩, Nat.add_sub_cancel_left]
  · rw [copyBits_bitAt _ _ _ _ _ _ hacc h, if_neg hout]

theorem copyOverlaps_eq_true {src dst : BufId} {s d n : Nat} :
    copyOverlaps src dst s d n = true ↔ rangesOverlap src dst s d n := by
  simp [copyOverlaps, rangesOverlap, and_assoc, Nat.one_le_iff_ne_zero]

/-- COPY in bounds between ranges that do not overlap completes (rule R62). -/
theorem exec_copy_of_inBounds {src dst : BufId} {s d n : Operand} {st : State}
    (hbounds : copyInBounds src dst s.toNat d.toNat n.toNat st) (h : ¬ rangesOverlap src dst s.toNat d.toNat n.toNat) :
    exec (.copy src dst s d n) st =
      .next (copyBits (.buffer src) (.buffer dst) s.toNat d.toNat n.toNat st) := by
  have hinside := copyOutside_eq_false.mpr hbounds
  rcases execCopy_cases src dst s d n st with ⟨houtside, _⟩ | ⟨_, hoverlaps, _⟩ | ⟨_, _, hcopies⟩
  · cases hinside.symm.trans houtside
  · exact absurd (copyOverlaps_eq_true.mp hoverlaps) h
  · exact hcopies

/-- Settles O18: the specification of `CopyBits`, at the places of the loop and at COPY's buffers. -/
theorem copyMovesExactlyTheRange : Obligations.CopyMovesExactlyTheRange := by
  unfold Obligations.CopyMovesExactlyTheRange
  refine ⟨fun src dst s d n st hbounds h => ?_, fun src dst s d n st hbounds h => ?_⟩
  · rcases hbounds with rfl | ⟨_, hdst⟩
    · exact ⟨fun k hk => absurd hk (Nat.not_lt_zero k), fun _ _ _ => rfl⟩
    · refine copyBits_moves_range st ?_ (apart_of_not_touching h)
      rintro rfl
      exact hdst
  · obtain ⟨hmoved, hkept⟩ := copyBits_moves_range (src := .buffer src) (dst := .buffer dst) st (by simp)
      (apart_of_not_touching (by simpa using h))
    exact ⟨_, exec_copy_of_inBounds hbounds h, hmoved, fun id p hout => hkept _ p (by simpa using hout)⟩

/-- Settles O21: without bits the loop ends at once, and COPY has no range to be out of bounds or to overlap. -/
theorem zeroLengthCopyIsNoOp : Obligations.ZeroLengthCopyIsNoOp := by
  unfold Obligations.ZeroLengthCopyIsNoOp
  refine ⟨fun src dst f s d st => ⟨copyBits_zero _ _ _ _ _, copyLoop_fuel _ _ _ _ _ _ _ (Nat.zero_le f), ?_⟩,
    fun src dst s d st => exec_copy_of_inBounds (.inl rfl) ?_⟩
  · rw [copyIterations_eq_count (Nat.zero_le f), Nat.count_zero]
  · rintro ⟨_, hpos, _⟩
    exact absurd hpos (by decide)

/-- A field that passes through `ACC` on its way from a buffer to a buffer ends as a copy between the buffers leaves it. -/
theorem copyBits_via_acc_byteAt {src dst : BufId} {s d a n : Nat} (st : State) (hfit : a + n ≤ 64)
    (h : Apart (.buffer src) (.buffer dst) s d n) (id : BufId) (k : Nat) :
    (copyBits .acc (.buffer dst) a d n (copyBits (.buffer src) .acc s a n st.clearAcc)).byteAt (.buffer id) k =
      (copyBits (.buffer src) (.buffer dst) s d n st).byteAt (.buffer id) k := by
  refine byteAt_eq_of_bits fun i _ => ?_
  rw [copyBits_bitAt _ _ _ _ _ _ (by simp) (apart_acc_buffer dst a d n), copyBits_bitAt _ _ _ _ _ _ (by simp) h]
  split
  next hin =>
    obtain ⟨_, hlo, hhi⟩ := hin
    rw [bitAt_acc_copyBits_clearAcc src s st hfit (by omega), Nat.add_sub_cancel_left,
      decide_eq_true ⟨Nat.le_add_right _ _, by omega⟩, Bool.true_and]
  next =>
    rw [copyBits_bitAt _ _ _ _ _ _ (fun _ => hfit) (apart_buffer_acc src s a n), if_neg (by simp)]
    exact bitAt_congr (clearAcc_byteAt_buffer _ _ _)

/-- Settles O37: GET and SET use the same bits of `ACC`, and the field passes through them. -/
theorem getThenSetMovesAsCopyDoes : Obligations.GetThenSetMovesAsCopyDoes := by
  unfold Obligations.GetThenSetMovesAsCopyDoes
  intro src dst n s d bc st hsrc hdst h
  have hget := exec_get_of_legalField hsrc
  obtain ⟨_, hn, _, hwidth, hsrcFits⟩ := hsrc
  have hset := exec_set_of_legalField
    (s := copyBits (.buffer src) .acc s.toNat (pad bc.toNat) bc.toNat st.clearAcc) (by simpa [legalField] using hdst)
  obtain ⟨_, _, _, _, hdstFits⟩ := hdst
  refine ⟨_, _, _, hget, hset, exec_copy_of_inBounds (.inr ⟨hsrcFits, hdstFits⟩) h, fun id k => ?_⟩
  exact copyBits_via_acc_byteAt st (pad_add_le hn hwidth) (apart_of_not_touching (by simpa using h)) id k

/-! ## What is refused (rules R61, R94) -/

/-- COPY in bounds between ranges that overlap has no result (rule R61). -/
theorem exec_copy_of_overlap {src dst : BufId} {s d n : Operand} {st : State}
    (hbounds : copyInBounds src dst s.toNat d.toNat n.toNat st) (h : rangesOverlap src dst s.toNat d.toNat n.toNat) :
    exec (.copy src dst s d n) st = .refused .overlappingCopy := by
  have hinside := copyOutside_eq_false.mpr hbounds
  have hoverlaps := copyOverlaps_eq_true.mpr h
  rcases execCopy_cases src dst s d n st with ⟨houtside, _⟩ | ⟨_, _, hrefused⟩ | ⟨_, hapart, _⟩
  · cases hinside.symm.trans houtside
  · exact hrefused
  · cases hapart.symm.trans hoverlaps

/-- A command is refused exactly when it is a COPY in bounds between ranges that overlap. -/
theorem exec_refused_iff {i : Instr} {st : State} {r : Refusal} : exec i st = .refused r ↔
    r = .overlappingCopy ∧ ∃ src dst s d n, i = .copy src dst s d n ∧ copyInBounds src dst s.toNat d.toNat n.toNat st ∧
      rangesOverlap src dst s.toNat d.toNat n.toNat := by
  refine ⟨fun h => ?_, ?_⟩
  · cases i with
    | mask start count =>
      rcases execMask_cases start count st with ⟨_, he⟩ | ⟨_, he⟩ <;> cases he.symm.trans h
    | copy src dst s d n =>
      rcases execCopy_cases src dst s d n st with ⟨_, he⟩ | ⟨hinside, hoverlaps, he⟩ | ⟨_, _, he⟩ <;>
        cases he.symm.trans h
      exact ⟨rfl, _, _, _, _, _, rfl, copyOutside_eq_false.mp hinside, copyOverlaps_eq_true.mp hoverlaps⟩
    | get buf n start bc =>
      rcases execGet_cases buf n start bc st with ⟨_, he⟩ | ⟨_, _, he⟩ | ⟨_, _, he⟩ <;> cases he.symm.trans h
    | set buf n start bc =>
      rcases execSet_cases buf n start bc st with ⟨_, he⟩ | ⟨_, _, he⟩ | ⟨_, _, he⟩ <;> cases he.symm.trans h
  · rintro ⟨rfl, src, dst, s, d, n, rfl, hbounds, hoverlap⟩
    exact exec_copy_of_overlap hbounds hoverlap

/-- Settles O22: in bounds, the overlap decides whether COPY is refused. -/
theorem overlappingCopyIsRefused : Obligations.OverlappingCopyIsRefused := by
  unfold Obligations.OverlappingCopyIsRefused
  intro src dst s d n st hbounds
  rw [exec_refused_iff]
  constructor
  · rintro ⟨_, _, _, _, _, _, hcopy, _, hoverlap⟩
    cases hcopy
    exact hoverlap
  · exact fun hoverlap => ⟨rfl, _, _, _, _, _, rfl, hbounds, hoverlap⟩

/-- Issuing a word is refused exactly when the core is READY and the command the word decodes to is refused. -/
theorem issue_refused_iff {cmd : Cmd} {st : State} {r : Refusal} :
    issue cmd st = .refused r ↔ st.stateBit = 0 ∧ ∃ i, decode cmd = .ok i ∧ exec i st = .refused r := by
  rcases BitVec.eq_zero_or_eq_one st.stateBit with hready | hfaulted
  · have hne : st.stateBit ≠ 1 := by simp [hready]
    cases hdecode : decode cmd with
    | error e => simp [issue_illegal hne hdecode]
    | ok i => simp [issue_command hne hdecode, hready]
  · simp [issue_faulted hfaulted, hfaulted]

/-- An outcome that a check decides is refused exactly when the check fails. -/
theorem ite_next_refused_iff {c : Prop} [Decidable c] {t : State} {r r' : Refusal} :
    (if c then .next t else .refused r' : Host.Outcome State Fault Refusal) = .refused r ↔ r = r' ∧ ¬ c := by
  split <;> simp [eq_comm, *]

/-! Each host access is refused exactly when it reaches outside its buffer. -/

theorem hostWriteByte_refused_iff {id : BufId} {k : Nat} {v : Byte} {st : State} {r : Refusal} :
    hostWriteByte id k v st = .refused r ↔
      r = .hostAccessOutsideBuffer ∧ hostActionOutside (.writeByte id k v) st = true := by
  rw [hostWriteByte, ite_next_refused_iff, not_lt, hostActionOutside, decide_eq_true_iff]

theorem hostLoadBuffer_refused_iff {id : BufId} {bytes : List Byte} {st : State} {r : Refusal} :
    hostLoadBuffer id bytes st = .refused r ↔
      r = .hostAccessOutsideBuffer ∧ hostActionOutside (.loadBuffer id bytes) st = true := by
  rw [hostLoadBuffer, ite_next_refused_iff, not_le, hostActionOutside, decide_eq_true_iff]

/-- Reading is allowed exactly where it is not outside a buffer. -/
theorem readable_eq_not_hostActionOutside (what : ReadTarget) (st : State) :
    readable what st = !hostActionOutside (.read what) st := by
  cases what with
  | bufByte id k => simp [readable, hostActionOutside, ← decide_not]
  | accByte i => rfl
  | maskResult => rfl
  | runState => rfl
  | causeCode => rfl
  | faultCmd => rfl

theorem hostRead_refused_iff {what : ReadTarget} {st : State} {r : Refusal} :
    hostRead what st = .refused r ↔
      r = .hostAccessOutsideBuffer ∧ hostActionOutside (.read what) st = true := by
  rw [hostRead, ite_next_refused_iff, readable_eq_not_hostActionOutside, Bool.not_eq_true', Bool.not_eq_false]

/-- An item is refused exactly when it is a host access outside its buffer, or a word a READY core refuses to execute. -/
theorem doAction_refused_iff {a : HostAction} {st : State} {r : Refusal} : doAction a st = .refused r ↔
    (r = .hostAccessOutsideBuffer ∧ hostActionOutside a st = true) ∨
      ∃ cmd i, a = .issue cmd ∧ st.stateBit = 0 ∧ decode cmd = .ok i ∧ exec i st = .refused r := by
  cases a with
  | reset l => simp [doAction, hostReset, hostActionOutside]
  | issue cmd => simp [doAction, issue_refused_iff, hostActionOutside]
  | writeAcc i v => simp [doAction, hostWriteAcc, hostActionOutside]
  | writeByte id k v => simp [doAction, hostWriteByte_refused_iff]
  | loadBuffer id bytes => simp [doAction, hostLoadBuffer_refused_iff]
  | read what => simp [doAction, hostRead_refused_iff]

/-- What the host still has to do decides no access. -/
theorem hostActionOutside_setPending (a : HostAction) (st : State) (rest : List HostAction) :
    hostActionOutside a (st.setPending rest) = hostActionOutside a st := rfl

/-- Settles O45: a step does the first item, which is refused for one of the two reasons; with no item left it idles. -/
theorem stepStopsOnlyThere : Obligations.StepStopsOnlyThere := by
  unfold Obligations.StepStopsOnlyThere
  intro s r
  cases hp : s.host.pending with
  | nil => simp [step_idle hp]
  | cons a rest =>
    rw [step_action hp, doAction_refused_iff, hostActionOutside_setPending]
    simp only [exec_refused_iff]
    constructor
    · rintro (⟨rfl, houtside⟩ |
        ⟨cmd, i, rfl, hready, hdecode, rfl, src, dst, so, d, n, rfl, hbounds, hoverlap⟩)
      · exact .inl ⟨rfl, a, rest, rfl, houtside⟩
      · exact .inr ⟨rfl, hready, cmd, rest, src, dst, so, d, n, rfl, hdecode, hbounds, hoverlap⟩
    · rintro (⟨rfl, a', rest', hitem, houtside⟩ |
        ⟨rfl, hready, cmd, rest', src, dst, so, d, n, hitem, hdecode, hbounds, hoverlap⟩) <;> cases hitem
      · exact .inl ⟨rfl, houtside⟩
      · exact .inr ⟨cmd, _, rfl, hready, hdecode, rfl, src, dst, so, d, n, rfl, hbounds, hoverlap⟩

end Sys2Proof.Machine
end

section
/-! What GET leaves in `ACC`, and what it reads (rules R63 to R65). -/

namespace Sys2Proof.Machine

/-! ## What a legal GET leaves (rules R63, R64) -/

/-- A copy into `ACC` writes no other field of the state. -/
theorem copyBits_into_acc_eq (src : Place) (so d n : Nat) (s : State) :
    copyBits src .acc so d n s = { s with acc := (copyBits src .acc so d n s).acc } :=
  State.ext_fields rfl (copyBits_mr _ _ _ _ _ _) (copyBits_stateBit _ _ _ _ _ _) (copyBits_cause _ _ _ _ _ _)
    (copyBits_fcmd _ _ _ _ _ _) (copyBits_bufLen _ _ _ _ _ _) (copyBits_buf _ _ _ _ _) (copyBits_host _ _ _ _ _ _)

/-- The array bits a field uses are the `bc` bits from `pad(bc)` on (rule R10). -/
theorem inField_eq_false {bc q : Nat} : inField bc q = false ↔ ¬ (pad bc ≤ q ∧ q < pad bc + bc) := by
  simp [inField, pad_add]

/-- Settles O23: GET copies the field into a cleared `ACC`, so each array bit is the field's bit there, or 0 outside it. -/
theorem getResultShape : Obligations.GetResultShape := by
  unfold Obligations.GetResultShape
  intro buf n start bc s hlegal
  have hget := exec_get_of_legalField hlegal
  obtain ⟨_, hn, _, hwidth, _⟩ := hlegal
  have hfit := pad_add_le hn hwidth
  have hbit := fun q hq => bitAt_acc_copyBits_clearAcc buf start.toNat s hfit (q := q) hq
  have hzero : ∀ q, q < 64 → ¬ (pad bc.toNat ≤ q ∧ q < pad bc.toNat + bc.toNat) →
      (copyBits (.buffer buf) .acc start.toNat (pad bc.toNat) bc.toNat s.clearAcc).bitAt .acc q = false := by
    intro q hq hout
    rw [hbit q hq, decide_eq_false hout, Bool.false_and]
  refine ⟨_, hget, copyBits_into_acc_eq _ _ _ _ s.clearAcc, fun q hlo hhi => ?_, hzero,
    fun q hq hout => hzero q hq (inField_eq_false.mp hout)⟩
  rw [hbit q (by omega), decide_eq_true ⟨hlo, hhi⟩, Bool.true_and]

/-! ## What GET reads (rule R65) -/

/-- The byte that holds a bit of the range is touched by it (rule R12). -/
theorem touched_of_bit_in_range {p n b : Nat} (hlo : p ≤ b) (hhi : b < p + n) : touched p n (b / 8) = true := by
  simp only [touched, firstTouched, lastTouched, Bool.and_eq_true, bne_iff_ne, decide_eq_true_eq]
  omega

/-- A field copied into a cleared `ACC` depends on the bytes the field touches and on nothing else of the state. -/
theorem acc_copyBits_clearAcc_congr {buf : BufId} {start d bc : Nat} {s s' : State} (hfit : d + bc ≤ 64)
    (h : ∀ k, touched start bc k = true → s.byteAt (.buffer buf) k = s'.byteAt (.buffer buf) k) :
    (copyBits (.buffer buf) .acc start d bc s.clearAcc).acc =
      (copyBits (.buffer buf) .acc start d bc s'.clearAcc).acc := by
  refine acc_ext fun q hq => ?_
  rw [bitAt_acc_copyBits_clearAcc buf start s hfit hq, bitAt_acc_copyBits_clearAcc buf start s' hfit hq]
  by_cases hin : d ≤ q ∧ q < d + bc
  · rw [bitAt_congr (h _ (touched_of_bit_in_range (by omega) (by omega)))]
  · rw [decide_eq_false hin, Bool.false_and, Bool.false_and]

/-- Settles O24: both GETs copy the same touched bytes into a cleared `ACC`, and a copy into `ACC` writes no buffer. -/
theorem getReadsOnlyTouchedBytes : Obligations.GetReadsOnlyTouchedBytes := by
  unfold Obligations.GetReadsOnlyTouchedBytes
  intro buf n start bc s s' hlegal hlegal' hagree
  have hget := exec_get_of_legalField hlegal
  obtain ⟨_, hn, _, hwidth, _⟩ := hlegal
  exact ⟨_, _, hget, exec_get_of_legalField hlegal', acc_copyBits_clearAcc_congr (pad_add_le hn hwidth) hagree,
    copyBits_buf _ _ _ _ _, copyBits_buf _ _ _ _ _⟩

end Sys2Proof.Machine
end

section
/-! What SET writes, and what it reads (rules R67 to R70). -/

namespace Sys2Proof.Machine

/-! ## The field a legal SET writes (rule R68) -/

/-- Settles O26: a legal SET is a copy out of `ACC`, which moves the bits of its range and no other. -/
theorem setWritesExactlyTheField : Obligations.SetWritesExactlyTheField := by
  unfold Obligations.SetWritesExactlyTheField
  intro buf n start bc s hlegal
  obtain ⟨hmoved, hkept⟩ := copyBits_moves_range (src := .acc) (dst := .buffer buf) s (by simp)
    (apart_acc_buffer buf (pad bc.toNat) start.toNat bc.toNat)
  exact ⟨_, exec_set_of_legalField hlegal, hmoved, fun p hout => hkept _ p (hout ·.2), copyBits_acc _ _ _ _ _ _,
    fun _ hid => copyBits_buf_ne _ hid _ _ _ _⟩

/-! ## What SET reads of `ACC` (rule R69) -/

/-- A copy out of `ACC` depends on the copied bits of it and on the buffers, and on nothing else of the state. -/
theorem copyBits_from_acc_byteAt_congr {dst : BufId} {a d n : Nat} {s s' : State}
    (hfield : ∀ k, k < n → s.bitAt .acc (a + k) = s'.bitAt .acc (a + k))
    (hbuf : ∀ (id : BufId) (k : Nat), s.byteAt (.buffer id) k = s'.byteAt (.buffer id) k) (id : BufId) (k : Nat) :
    (copyBits .acc (.buffer dst) a d n s).byteAt (.buffer id) k =
      (copyBits .acc (.buffer dst) a d n s').byteAt (.buffer id) k := by
  refine byteAt_eq_of_bits fun i _ => ?_
  have hapart := apart_acc_buffer dst a d n
  rw [copyBits_bitAt _ _ _ _ _ s (by simp) hapart, copyBits_bitAt _ _ _ _ _ s' (by simp) hapart]
  split
  next hin => exact hfield _ (by omega)
  next => exact bitAt_congr (hbuf id _)

/-- Settles O28: both SETs copy the same bits of `ACC` into the same buffers. -/
theorem setIgnoresStrayBits : Obligations.SetIgnoresStrayBits := by
  unfold Obligations.SetIgnoresStrayBits
  intro buf n start bc s a a' hlegal hagree
  exact ⟨_, _, exec_set_of_legalField (s := { s with acc := a }) hlegal,
    exec_set_of_legalField (s := { s with acc := a' }) hlegal,
    copyBits_from_acc_byteAt_congr hagree fun _ _ => rfl⟩

/-! ## The caller's integer in `ACC` (rules R9, R70) -/

/-- Bit `i` of a byte, counted from the most significant, has weight `7 - i` (rule R7). -/
theorem msb_eq_testBit (b : Byte) {i : Nat} (hi : i < 8) : msb b i = b.toNat.testBit (7 - i) := by
  simp [msb, BitVec.getMsbD, hi, BitVec.getLsbD]

/-- Bit `i` of the `j`-th little-endian byte of `v`, counted from the most significant, is bit `8 * j + 7 - i` of `v`. -/
theorem msb_of_toNat_eq_leByte {b : Byte} {v j : Nat} (hb : b.toNat = v / 256 ^ j % 256) {i : Nat} (hi : i < 8) :
    msb b i = v.testBit (8 * j + 7 - i) := by
  rw [msb_eq_testBit b hi, hb, show 256 = 2 ^ 8 from rfl, ← pow_mul, Nat.testBit_mod_two_pow,
    Nat.testBit_div_two_pow, decide_eq_true (by omega), Bool.true_and]
  congr 1
  omega

/-- Where `ACC` holds the first bytes of `v`, the array bit `q` is the bit of `v` that weighs what `q` weighs in `LE`. -/
theorem bitAt_acc_eq_testBit {s : State} {n v : Nat} (hn : n ≤ 8)
    (hbytes : ∀ i : Fin 8, i.val < n → s.acc[i].toNat = v / 256 ^ i.val % 256) {q : Nat} (hq : q < 8 * n) :
    s.bitAt .acc q = v.testBit (bitWeight q) := by
  have hbyte : (s.byteAt .acc (q / 8)).toNat = v / 256 ^ (q / 8) % 256 := by
    rw [byteAt_acc s (by omega)]
    exact hbytes ⟨q / 8, by omega⟩ (show q / 8 < n by omega)
  exact msb_of_toNat_eq_leByte hbyte (Nat.mod_lt q (by omega))

/-- A field of at most `8 * n` bits lies in the first `n` bytes of the accessor array (rule R10). -/
theorem pad_add_le_of_width {n bc : Nat} (hwidth : bc ≤ 8 * n) : pad bc + bc ≤ 8 * n := by
  rw [pad_add, fieldBytes]
  omega

/-- Settles O29: SET stores the field's array bits, and each is the bit of the caller's integer of its own weight. -/
theorem setStoresIntegerBits : Obligations.SetStoresIntegerBits := by
  unfold Obligations.SetStoresIntegerBits
  intro buf n start bc s v hlegal hbytes
  obtain ⟨t, hset, hmoved, _⟩ := setWritesExactlyTheField buf n start bc s hlegal
  obtain ⟨_, hn, _, hwidth, _⟩ := hlegal
  have hfit := pad_add_le_of_width hwidth
  refine ⟨t, hset, fun k hk => ?_⟩
  rw [hmoved k hk, bitAt_acc_eq_testBit hn hbytes (by omega)]

end Sys2Proof.Machine
end

section
/-! Laws of GET and SET together (rules R71 to R74, R76, R77): a legal GET and a legal SET as functions of the state, what each
leaves of every bit, and the laws that follow bit by bit. -/

namespace Sys2Proof.Machine

/-! ## The two commands as functions of the state (rules R63, R67) -/

/-- What a legal SET of a field leaves; the accessor count has no part in it. -/
def setField (buf : BufId) (start bc : Nat) (s : State) : State := copyBits .acc (.buffer buf) (pad bc) start bc s

/-- What a legal GET of a field leaves; the accessor count has no part in it. -/
def getField (buf : BufId) (start bc : Nat) (s : State) : State :=
  copyBits (.buffer buf) .acc start (pad bc) bc s.clearAcc

theorem exec_set_eq_setField {buf : BufId} {n : Nibble} {start bc : Operand} {s : State}
    (h : legalField buf n.toNat start.toNat bc.toNat s) :
    exec (.set buf n start bc) s = .next (setField buf start.toNat bc.toNat s) :=
  exec_set_of_legalField h

theorem exec_get_eq_getField {buf : BufId} {n : Nibble} {start bc : Operand} {s : State}
    (h : legalField buf n.toNat start.toNat bc.toNat s) :
    exec (.get buf n start bc) s = .next (getField buf start.toNat bc.toNat s) :=
  exec_get_of_legalField h

/-- A width the accessor count does not reach raises INVALID_WIDTH before anything else is looked at (rule R82). -/
theorem exec_field_of_width_lt {buf : BufId} {n : Nibble} {start bc : Operand} {s : State} (h : 8 * n.toNat < bc.toNat) :
    exec (.get buf n start bc) s = .next (s.raiseFault .invalidWidth (encode (.get buf n start bc))) ∧
      exec (.set buf n start bc) s = .next (s.raiseFault .invalidWidth (encode (.set buf n start bc))) := by
  have hw : widthInvalid n.toNat bc.toNat = true := by simp [widthInvalid, h]
  exact ⟨if_pos hw, if_pos hw⟩

@[simp] theorem setField_bufLen (buf : BufId) (start bc : Nat) (s : State) : (setField buf start bc s).bufLen = s.bufLen :=
  copyBits_bufLen _ _ _ _ _ _

@[simp] theorem getField_bufLen (buf : BufId) (start bc : Nat) (s : State) : (getField buf start bc s).bufLen = s.bufLen :=
  copyBits_bufLen _ _ _ _ _ _

/-- Whether a field is legal depends on the buffers' lengths alone. -/
theorem legalField_of_bufLen_eq {buf : BufId} {n start bc : Nat} {s t : State} (hlen : t.bufLen = s.bufLen)
    (h : legalField buf n start bc s) : legalField buf n start bc t := by
  simpa only [legalField, hlen] using h

/-- A legal field fits the accessor array. -/
theorem pad_add_le_of_legalField {buf : BufId} {n start bc : Nat} {s : State} (h : legalField buf n start bc s) :
    pad bc + bc ≤ 64 := by
  obtain ⟨_, hn, _, hwidth, _⟩ := h
  exact pad_add_le hn hwidth

/-! ## Every bit after a GET or a SET (rules R64, R68) -/

theorem inField_eq_true {bc q : Nat} : inField bc q = true ↔ pad bc ≤ q ∧ q < pad bc + bc := by
  simp [inField, pad_add]

theorem setField_bitAt_buffer (buf : BufId) (start bc : Nat) (s : State) (id : BufId) (p : Nat) :
    (setField buf start bc s).bitAt (.buffer id) p =
      if id = buf ∧ start ≤ p ∧ p < start + bc then s.bitAt .acc (pad bc + (p - start)) else s.bitAt (.buffer id) p := by
  rw [setField, copyBits_bitAt _ _ _ _ _ _ (by simp) (apart_acc_buffer buf _ _ _)]
  simp

/-- A SET writes no accessor bit. -/
theorem setField_bitAt_acc (buf : BufId) (start bc : Nat) (s : State) (q : Nat) :
    (setField buf start bc s).bitAt .acc q = s.bitAt .acc q := by
  rw [setField, copyBits_bitAt _ _ _ _ _ _ (by simp) (apart_acc_buffer buf _ _ _), if_neg (by simp)]

/-- A GET writes no buffer bit. -/
theorem getField_bitAt_buffer (buf : BufId) (start bc : Nat) (s : State) (id : BufId) (p : Nat) :
    (getField buf start bc s).bitAt (.buffer id) p = s.bitAt (.buffer id) p := by
  simp [State.bitAt, State.byteAt, getField]

theorem getField_bitAt_acc (buf : BufId) (start : Nat) {bc : Nat} (s : State) (hfit : pad bc + bc ≤ 64) {q : Nat}
    (hq : q < 64) : (getField buf start bc s).bitAt .acc q =
      (inField bc q && s.bitAt (.buffer buf) (start + (q - pad bc))) := by
  have hrange : inField bc q = decide (pad bc ≤ q ∧ q < pad bc + bc) := by
    rw [Bool.eq_iff_iff, inField_eq_true, decide_eq_true_iff]
  rw [hrange]
  exact bitAt_acc_copyBits_clearAcc buf start s hfit hq

/-- Two GETs of one field leave the same `ACC` when the field's bits are the same (rules R64, R65). -/
theorem getField_acc_congr {buf : BufId} {start bc : Nat} {s s' : State} (hfit : pad bc + bc ≤ 64)
    (h : ∀ k, k < bc → s.bitAt (.buffer buf) (start + k) = s'.bitAt (.buffer buf) (start + k)) :
    (getField buf start bc s).acc = (getField buf start bc s').acc := by
  refine acc_ext fun q hq => ?_
  rw [getField_bitAt_acc buf start s hfit hq, getField_bitAt_acc buf start s' hfit hq]
  cases hin : inField bc q with
  | false => simp only [Bool.false_and]
  | true =>
    obtain ⟨hlo, hhi⟩ := inField_eq_true.mp hin
    rw [h (q - pad bc) (by omega)]

/-! ## A value written and read back (rules R71, R72) -/

/-- SET then GET of one field leaves `canon_bc` of the `ACC` before them. -/
theorem getField_setField_bitAt_acc (buf : BufId) (start : Nat) {bc : Nat} (s : State) (hfit : pad bc + bc ≤ 64) {q : Nat}
    (hq : q < 64) : (getField buf start bc (setField buf start bc s)).bitAt .acc q = canonBit bc s q := by
  rw [getField_bitAt_acc buf start _ hfit hq, canonBit]
  cases hin : inField bc q with
  | false => simp only [Bool.false_and]
  | true =>
    obtain ⟨hlo, hhi⟩ := inField_eq_true.mp hin
    rw [setField_bitAt_buffer, if_pos ⟨rfl, by omega, by omega⟩, Nat.add_sub_cancel_left, Nat.add_sub_cancel' hlo]

/-- `canon_bc` of a canonical array is that array. -/
theorem canonBit_of_canonical {bc : Nat} {s : State} (h : canonical bc s) {q : Nat} (hq : q < 64) :
    canonBit bc s q = s.bitAt .acc q := by
  rw [canonBit]
  cases hin : inField bc q with
  | false => rw [h q hq hin, Bool.and_false]
  | true => rw [Bool.true_and]

/-- A legal SET and a legal GET of the same field after it complete. -/
theorem exec_set_get_of_legalField {buf : BufId} {n m : Nibble} {start bc : Operand} {s : State}
    (hset : legalField buf n.toNat start.toNat bc.toNat s) (hget : legalField buf m.toNat start.toNat bc.toNat s) :
    exec (.set buf n start bc) s = .next (setField buf start.toNat bc.toNat s) ∧
      exec (.get buf m start bc) (setField buf start.toNat bc.toNat s) =
        .next (getField buf start.toNat bc.toNat (setField buf start.toNat bc.toNat s)) :=
  ⟨exec_set_eq_setField hset, exec_get_eq_getField (legalField_of_bufLen_eq (setField_bufLen _ _ _ _) hget)⟩

/-- Settles O30: GET reads back the bits SET wrote, 0 beside them, and neither touches a bit outside the field. -/
theorem roundTripExact : Obligations.RoundTripExact := by
  unfold Obligations.RoundTripExact
  intro buf n m start bc s hn hm
  obtain ⟨hset, hget⟩ := exec_set_get_of_legalField hn hm
  refine ⟨_, _, hset, hget, fun q hq => getField_setField_bitAt_acc buf _ s (pad_add_le_of_legalField hn) hq,
    fun p hout => ?_⟩
  rw [getField_bitAt_buffer, setField_bitAt_buffer, if_neg (hout ·.2)]

/-- Settles O31: `canon_bc` of a canonical `ACC` is that `ACC`. -/
theorem roundTripCanonical : Obligations.RoundTripCanonical := by
  unfold Obligations.RoundTripCanonical
  intro buf n m start bc s hn hm hcanonical
  obtain ⟨hset, hget⟩ := exec_set_get_of_legalField hn hm
  refine ⟨_, _, hset, hget, acc_ext fun q hq => ?_⟩
  rw [getField_setField_bitAt_acc buf _ s (pad_add_le_of_legalField hn) hq, canonBit_of_canonical hcanonical hq]

/-! ## Disjoint fields (rule R73) -/

/-- Settles O32: a SET keeps every bit outside its range, so the bits a GET of the other field reads. -/
theorem setLeavesDisjointField : Obligations.SetLeavesDisjointField := by
  unfold Obligations.SetLeavesDisjointField
  intro buf nA nB startA bcA startB bcB s hA hB hdisjoint
  have hget := exec_get_eq_getField (legalField_of_bufLen_eq (setField_bufLen buf startA.toNat bcA.toNat s) hB)
  refine ⟨_, _, _, exec_set_eq_setField hA, hget, exec_get_eq_getField hB,
    getField_acc_congr (pad_add_le_of_legalField hB) fun k hk => ?_, fun p hout => ?_, fun id p hid => ?_⟩
  · rw [setField_bitAt_buffer, if_neg (by omega)]
  · rw [setField_bitAt_buffer, if_neg (hout ·.2)]
  · rw [setField_bitAt_buffer, if_neg (hid ·.1)]

/-! ## A field read and written back (rule R74) -/

/-- GET then SET of one field leaves every bit of every buffer as it was. -/
theorem setField_getField_bitAt_buffer (buf : BufId) (start : Nat) {bc : Nat} (s : State) (hfit : pad bc + bc ≤ 64)
    (id : BufId) (p : Nat) :
    (setField buf start bc (getField buf start bc s)).bitAt (.buffer id) p = s.bitAt (.buffer id) p := by
  rw [setField_bitAt_buffer]
  split
  next hin =>
    obtain ⟨rfl, hlo, hhi⟩ := hin
    have hfield : inField bc (pad bc + (p - start)) = true := inField_eq_true.mpr ⟨by omega, by omega⟩
    rw [getField_bitAt_acc id start s hfit (by omega), hfield, Bool.true_and, Nat.add_sub_cancel_left,
      Nat.add_sub_cancel' hlo]
  next => rw [getField_bitAt_buffer]

/-- Settles O33: SET writes the bits GET read to where they came from. -/
theorem reverseRoundTrip : Obligations.ReverseRoundTrip := by
  unfold Obligations.ReverseRoundTrip
  intro buf n m start bc s hn hm
  have hset := exec_set_eq_setField (legalField_of_bufLen_eq (getField_bufLen buf start.toNat bc.toNat s) hm)
  exact ⟨_, _, exec_get_eq_getField hn, hset, fun id k => byteAt_eq_of_bits fun i _ =>
    setField_getField_bitAt_buffer buf _ s (pad_add_le_of_legalField hn) id _⟩

/-! ## Two SETs (rule R76) -/

/-- A second SET of one field, with the same `ACC`, writes what the first wrote. -/
theorem setField_setField_bitAt_buffer (buf : BufId) (start bc : Nat) (s : State) (id : BufId) (p : Nat) :
    (setField buf start bc (setField buf start bc s)).bitAt (.buffer id) p =
      (setField buf start bc s).bitAt (.buffer id) p := by
  rw [setField_bitAt_buffer buf start bc (setField buf start bc s)]
  split
  next hin => rw [setField_bitAt_buffer, if_pos hin, setField_bitAt_acc]
  next => rfl

/-- The accessor bits are those of the array the host put there. -/
theorem bitAt_acc_with_acc (s s' : State) (a : Vector Byte 8) (q : Nat) :
    { s with acc := a }.bitAt .acc q = { s' with acc := a }.bitAt .acc q := rfl

theorem bitAt_buffer_with_acc (s : State) (a : Vector Byte 8) (id : BufId) (p : Nat) :
    { s with acc := a }.bitAt (.buffer id) p = s.bitAt (.buffer id) p := rfl

/-- SETs of fields that share no bit, each with its own `ACC`, leave the same bits in either order. -/
theorem setField_comm_bitAt_buffer {bufA bufB : BufId} {startA bcA startB bcB : Nat} (a b : Vector Byte 8) (s : State)
    (hdisjoint : bufA ≠ bufB ∨ startA + bcA ≤ startB ∨ startB + bcB ≤ startA) (id : BufId) (p : Nat) :
    (setField bufB startB bcB { setField bufA startA bcA { s with acc := a } with acc := b }).bitAt (.buffer id) p =
      (setField bufA startA bcA { setField bufB startB bcB { s with acc := b } with acc := a }).bitAt (.buffer id) p := by
  simp only [setField_bitAt_buffer, bitAt_buffer_with_acc]
  by_cases hA : id = bufA ∧ startA ≤ p ∧ p < startA + bcA
  · have hB : ¬ (id = bufB ∧ startB ≤ p ∧ p < startB + bcB) := by
      rintro ⟨hid, hlo, hhi⟩
      rcases hdisjoint with hne | hrange
      · exact hne (hA.1.symm.trans hid)
      · omega
    rw [if_pos hA, if_pos hA, if_neg hB]
    exact bitAt_acc_with_acc _ _ a _
  · rw [if_neg hA, if_neg hA]
    split
    next => exact bitAt_acc_with_acc _ _ b _
    next => rfl

/-- Settles O35: a SET again writes the same bits, and two disjoint SETs each write bits the other leaves alone. -/
theorem setsIdempotentAndCommute : Obligations.SetsIdempotentAndCommute := by
  unfold Obligations.SetsIdempotentAndCommute
  refine ⟨fun buf n start bc s h => ?_, fun bufA bufB nA nB startA bcA startB bcB a b s hA hB hdisjoint => ?_⟩
  · have hagain := exec_set_eq_setField (legalField_of_bufLen_eq (setField_bufLen buf start.toNat bc.toNat s) h)
    exact ⟨_, _, exec_set_eq_setField h, hagain, fun id k => byteAt_eq_of_bits fun i _ =>
      setField_setField_bitAt_buffer buf _ _ s id _⟩
  · have hlenA := setField_bufLen bufA startA.toNat bcA.toNat { s with acc := a }
    have hlenB := setField_bufLen bufB startB.toNat bcB.toNat { s with acc := b }
    exact ⟨_, _, _, _, exec_set_eq_setField (legalField_of_bufLen_eq rfl hA),
      exec_set_eq_setField (legalField_of_bufLen_eq hlenA hB),
      exec_set_eq_setField (legalField_of_bufLen_eq rfl hB),
      exec_set_eq_setField (legalField_of_bufLen_eq hlenB hA), fun id k => byteAt_eq_of_bits fun i _ =>
        setField_comm_bitAt_buffer a b s hdisjoint id _⟩

/-! ## The accessor count (rule R77) -/

/-- Settles O36: what a legal GET or SET leaves has no accessor count in it; one too small raises INVALID_WIDTH. -/
theorem accessorCountDoesNotMatter : Obligations.AccessorCountDoesNotMatter := by
  unfold Obligations.AccessorCountDoesNotMatter
  intro buf n m start bc s hn
  refine ⟨fun hm => ?_, fun hwidth => ?_⟩
  · exact ⟨_, _, exec_get_eq_getField hn, exec_get_eq_getField hm, exec_set_eq_setField hn, exec_set_eq_setField hm⟩
  · obtain ⟨hget, hset⟩ := exec_field_of_width_lt hwidth
    exact ⟨_, _, hget, rfl, rfl, hset, rfl, rfl⟩

end Sys2Proof.Machine
end

section
/-! Which integers a field reads back as they were written (rules R9, R10, R75). -/

namespace Sys2Proof.Machine

/-! ## The integer whose canonical part is read back (rule R75) -/

/-- `V'` of rule R75: `v` without the bits from byte `L(bc)` on and without the top `pad(bc)` bits of byte 0. -/
def canonInteger (bc v : Nat) : Nat :=
  v % 2 ^ (8 * fieldBytes bc) - v % 256 / 2 ^ (8 - pad bc) * 2 ^ (8 - pad bc)

theorem fieldBytes_pos {bc : Nat} (h : 1 ≤ bc) : 1 ≤ fieldBytes bc := by
  rw [fieldBytes]; omega

/-- Byte 0 of `v` survives the reduction to the field's bytes. -/
theorem mod_fieldBytes_mod_256 {bc : Nat} (h : 1 ≤ bc) (v : Nat) : v % 2 ^ (8 * fieldBytes bc) % 256 = v % 256 :=
  Nat.mod_mod_of_dvd v (pow_dvd_pow 2 (show 8 ≤ 8 * fieldBytes bc from by have := fieldBytes_pos h; omega))

theorem canonInteger_le (bc v : Nat) : canonInteger bc v ≤ v :=
  (Nat.sub_le _ _).trans (Nat.mod_le v _)

/-- The bytes above byte 0 of the reduced integer, and the low `8 - pad(bc)` bits of byte 0. -/
theorem canonInteger_eq_add {bc : Nat} (h : 1 ≤ bc) (v : Nat) :
    canonInteger bc v = 2 ^ 8 * (v % 2 ^ (8 * fieldBytes bc) / 2 ^ 8) + v % 256 % 2 ^ (8 - pad bc) := by
  have hbyte := mod_fieldBytes_mod_256 h v
  have hhigh := Nat.div_add_mod (v % 2 ^ (8 * fieldBytes bc)) 256
  have hlow := Nat.div_add_mod' (v % 256) (2 ^ (8 - pad bc))
  rw [canonInteger, show 2 ^ 8 = 256 from rfl]
  omega

theorem canonInteger_testBit {bc : Nat} (h : 1 ≤ bc) (v w : Nat) :
    (canonInteger bc v).testBit w = (decide (w < 8 - pad bc ∨ 8 ≤ w ∧ w < 8 * fieldBytes bc) && v.testBit w) := by
  have hlow : v % 256 % 2 ^ (8 - pad bc) < 2 ^ 8 := (Nat.mod_le _ _).trans_lt (Nat.mod_lt v (by decide))
  rw [canonInteger_eq_add h, Nat.testBit_two_pow_mul_add _ hlow]
  split
  next hw =>
    rw [show 256 = 2 ^ 8 from rfl, Nat.testBit_mod_two_pow, Nat.testBit_mod_two_pow, decide_eq_true hw, Bool.true_and]
    simp [show ¬ 8 ≤ w by omega]
  next hw =>
    rw [Nat.testBit_div_two_pow, Nat.testBit_mod_two_pow, Nat.sub_add_cancel (by omega)]
    simp [show ¬ w < 8 - pad bc by omega, show 8 ≤ w by omega]

/-- An array bit is in the field exactly when `canonInteger` keeps the bit of its weight. -/
theorem inField_iff_bitWeight {bc : Nat} (h : 1 ≤ bc) (q : Nat) :
    inField bc q = true ↔ bitWeight q < 8 - pad bc ∨ 8 ≤ bitWeight q ∧ bitWeight q < 8 * fieldBytes bc := by
  have hpad := pad_lt bc
  have hbytes := pad_add bc
  have hL := fieldBytes_pos h
  rw [inField_eq_true, bitWeight]
  omega

theorem inField_and_testBit {bc : Nat} (h : 1 ≤ bc) (v q : Nat) :
    (inField bc q && v.testBit (bitWeight q)) = (canonInteger bc v).testBit (bitWeight q) := by
  rw [canonInteger_testBit h, Bool.eq_iff_iff]
  simp only [Bool.and_eq_true, decide_eq_true_iff, inField_iff_bitWeight h]

/-- Rule R75: an integer is its own canonical part exactly when it fits the field's bytes and byte 0 has its padding clear. -/
theorem canonInteger_eq_self_iff (bc v : Nat) :
    canonInteger bc v = v ↔ v < 2 ^ (8 * fieldBytes bc) ∧ v % 256 < 2 ^ (8 - pad bc) := by
  have hpos : 0 < 2 ^ (8 * fieldBytes bc) := Nat.two_pow_pos _
  rw [canonInteger]
  constructor
  · intro heq
    have hfits : v < 2 ^ (8 * fieldBytes bc) := by
      have := Nat.mod_lt v hpos
      omega
    rw [Nat.mod_eq_of_lt hfits] at heq
    have hpadding : v % 256 / 2 ^ (8 - pad bc) * 2 ^ (8 - pad bc) = 0 := by
      have := Nat.div_mul_le_self (v % 256) (2 ^ (8 - pad bc))
      have := Nat.mod_le v 256
      omega
    have hquot := (Nat.mul_eq_zero.mp hpadding).resolve_right (Nat.two_pow_pos _).ne'
    exact ⟨hfits, Nat.lt_of_div_eq_zero (Nat.two_pow_pos _) hquot⟩
  · rintro ⟨hfits, hlow⟩
    rw [Nat.mod_eq_of_lt hfits, Nat.div_eq_of_lt hlow, Nat.zero_mul, Nat.sub_zero]

/-! ## `LE` of an accessor array whose bits are an integer's (rule R9) -/

/-- An accessor byte whose bits are those of `v` of their weights is that little-endian byte of `v`. -/
theorem byteAt_acc_eq_leByte {s : State} {v j : Nat}
    (h : ∀ i, i < 8 → s.bitAt .acc (8 * j + i) = v.testBit (bitWeight (8 * j + i))) :
    s.byteAt .acc j = BitVec.ofNat 8 (v / 256 ^ j) := by
  refine byte_ext fun i hi => ?_
  rw [← bitAt_eq _ _ _ _ hi, h i hi, msb_of_toNat_eq_leByte (v := v) (j := j) (BitVec.toNat_ofNat _ _) hi, bitWeight]
  congr 1
  omega

/-- Where the first `8 * m` array bits are those of `v` of their weights, `LE(ACC, m)` is `v` below `256 ^ m`. -/
theorem leValue_eq_mod {s : State} {v m : Nat} (hm : m ≤ 8)
    (h : ∀ q, q < 8 * m → s.bitAt .acc q = v.testBit (bitWeight q)) : leValue s.acc m = v % 256 ^ m := by
  induction m with
  | zero => rw [leValue, pow_zero, Nat.mod_one]
  | succ m ih =>
    have hbyte := byteAt_acc_eq_leByte (s := s) (v := v) (j := m) fun i hi => h _ (by omega)
    have hacc : s.acc[m]?.getD 0 = s.byteAt .acc m := by simp [State.byteAt, show m < 8 by omega]
    rw [leValue, hacc, hbyte, BitVec.toNat_ofNat, ih (by omega) fun q hq => h q (by omega)]
    exact Nat.mod_pow_succ.symm

/-- The integer that reads back (rule R75). -/
theorem leValue_getField_setField (buf : BufId) (start : Nat) {n bc v : Nat} {s : State} (hn : n ≤ 8) (hbc : 1 ≤ bc)
    (hwidth : bc ≤ 8 * n) (hv : v < 256 ^ n) (hacc : holdsInteger s.acc n v) :
    leValue (getField buf start bc (setField buf start bc s)).acc n = canonInteger bc v := by
  have hbytes : ∀ i : Fin 8, i.val < n → s.acc[i].toNat = v / 256 ^ i.val % 256 := fun i hi => by
    rw [hacc i, if_pos hi]
  have hbit : ∀ q, q < 8 * n → (getField buf start bc (setField buf start bc s)).bitAt .acc q =
      (canonInteger bc v).testBit (bitWeight q) := fun q hq => by
    rw [getField_setField_bitAt_acc buf start s (pad_add_le hn hwidth) (by omega), canonBit,
      bitAt_acc_eq_testBit hn hbytes hq, inField_and_testBit hbc]
  rw [leValue_eq_mod hn hbit, Nat.mod_eq_of_lt ((canonInteger_le bc v).trans_lt hv)]

/-! ## How many integers are canonical (rule R75) -/

/-- One run of `b` numbers from a multiple of `b` on has `c` remainders below `c`. -/
theorem count_mod_lt_run {b c : Nat} (hc : c ≤ b) (m : Nat) : Nat.count (fun k => (b * m + k) % b < c) b = c := by
  obtain ⟨d, rfl⟩ := Nat.exists_eq_add_of_le hc
  have hbelow : Nat.count (fun k => ((c + d) * m + k) % (c + d) < c) c = c := Nat.count_of_forall fun k hk => by
    rwa [Nat.mul_add_mod, Nat.mod_eq_of_lt (by omega)]
  have habove : Nat.count (fun k => ((c + d) * m + (c + k)) % (c + d) < c) d = 0 := Nat.count_of_forall_not fun k hk => by
    rw [Nat.mul_add_mod, Nat.mod_eq_of_lt (by omega)]
    omega
  rw [Nat.count_add, hbelow, habove, Nat.add_zero]

/-- A remainder below `c` occurs `c` times in each run of `b` numbers. -/
theorem count_mod_lt {b c : Nat} (hc : c ≤ b) (m : Nat) : Nat.count (fun v => v % b < c) (b * m) = c * m := by
  induction m with
  | zero => rfl
  | succ m ih => rw [Nat.mul_succ, Nat.count_add, ih, count_mod_lt_run hc, Nat.mul_succ]

/-- A width up to 8, or of whole bytes, has the interval below `2 ^ bc` as its canonical integers. -/
theorem canonicalInteger_iff_lt {bc : Nat} (hbc : 1 ≤ bc) (h : bc ≤ 8 ∨ bc % 8 = 0) (v : Nat) :
    v < 2 ^ (8 * fieldBytes bc) ∧ v % 256 < 2 ^ (8 - pad bc) ↔ v < 2 ^ bc := by
  rcases h with hsmall | hwhole
  · have hL : 8 * fieldBytes bc = 8 := by rw [fieldBytes]; omega
    have hP : 8 - pad bc = bc := by rw [pad]; omega
    have hle : 2 ^ bc ≤ 2 ^ 8 := Nat.pow_le_pow_right (by decide) hsmall
    rw [hL, hP]
    omega
  · have hL : 8 * fieldBytes bc = bc := by rw [fieldBytes]; omega
    have hP : 8 - pad bc = 8 := by rw [pad]; omega
    have hlow : v % 256 < 2 ^ 8 := Nat.mod_lt v (by decide)
    rw [hL, hP]
    exact and_iff_left hlow

/-- A width of `bc` bits has `2 ^ bc` canonical integers. -/
theorem count_canonicalInteger {bc : Nat} (hbc : 1 ≤ bc) :
    Nat.count (fun v => v % 256 < 2 ^ (8 - pad bc)) (2 ^ (8 * fieldBytes bc)) = 2 ^ bc := by
  have hbytes := pad_add bc
  have hpad := pad_lt bc
  have hL := fieldBytes_pos hbc
  calc Nat.count (fun v => v % 256 < 2 ^ (8 - pad bc)) (2 ^ (8 * fieldBytes bc))
    _ = Nat.count (fun v => v % 256 < 2 ^ (8 - pad bc)) (256 * 2 ^ (8 * fieldBytes bc - 8)) := by
        rw [show 256 = 2 ^ 8 from rfl, ← pow_add, Nat.add_sub_cancel' (by omega)]
    _ = 2 ^ (8 - pad bc) * 2 ^ (8 * fieldBytes bc - 8) :=
        count_mod_lt (Nat.pow_le_pow_right Nat.two_pos (Nat.sub_le 8 _)) _
    _ = 2 ^ bc := by
        rw [← pow_add]
        congr 1
        omega

/-- With padding, 255 is no canonical integer: the top bit of byte 0 is not in the field. -/
theorem not_canonicalInteger_255 {bc : Nat} (h : bc % 8 ≠ 0) : ¬ 255 % 256 < 2 ^ (8 - pad bc) := by
  have hle : 2 ^ (8 - pad bc) ≤ 2 ^ 7 := Nat.pow_le_pow_right (by decide) (by rw [pad]; omega)
  omega

/-- Settles O34: what reads back has the bits of the canonical part, which decides when it is the integer written; the two kinds of
width then differ in whether the padding lies above the integer or inside it. -/
theorem integerRoundTrip : Obligations.IntegerRoundTrip := by
  unfold Obligations.IntegerRoundTrip
  refine ⟨fun buf n m start bc s v hn hm hv hacc => ?_, fun bc v hbc _ h => canonicalInteger_iff_lt hbc h v,
    fun bc hbig _ h => ⟨count_canonicalInteger (by omega), 255, ?_, not_canonicalInteger_255 h⟩⟩
  · obtain ⟨hset, hget⟩ := exec_set_get_of_legalField hn hm
    obtain ⟨_, hn8, hbc, hwidth, _⟩ := hn
    have hback := leValue_getField_setField buf start.toNat hn8 hbc hwidth hv hacc
    exact ⟨_, _, hset, hget, hback, by rw [hback, canonInteger_eq_self_iff]⟩
  · exact (show 255 < 2 ^ 8 by decide).trans (Nat.pow_lt_pow_right (by decide) hbig)

end Sys2Proof.Machine
end

section
/-! Faults (rules R79 to R88): which fault a command raises, read from its operands and the buffer lengths alone, what fault entry
writes, and what a FAULTED core does until reset. -/

namespace Sys2Proof.Machine

/-! ## The fault of a command (rules R82 to R85) -/

/-- The fault a command raises on a READY core whose buffers have lengths `lens`; `none` when it raises none. No data enters. -/
def faultOf (lens : Vector Nat 16) : Instr → Option FaultCause
  | .mask start count => if maskRangeErr start.toNat count.toNat then some .maskRange else none
  | .copy src dst s d n => if copyOutside lens[src] lens[dst] s.toNat d.toNat n.toNat then some .outOfBounds else none
  | .get buf n start bc | .set buf n start bc =>
    if widthInvalid n.toNat bc.toNat then some .invalidWidth
    else if rangeOutside lens[buf] start.toNat bc.toNat then some .outOfBounds else none

/-- The command is a COPY between ranges that overlap (rule R61). -/
def overlapping : Instr → Bool
  | .copy src dst s d n => copyOverlaps src dst s.toNat d.toNat n.toNat
  | .mask _ _ | .get _ _ _ _ | .set _ _ _ _ => false

/-- What a command does about faults: it takes the fault `faultOf` names, or is refused for an overlap, or completes and leaves the
fault record. -/
theorem exec_cases (i : Instr) (s : State) :
    (∃ c, faultOf s.bufLen i = some c ∧ exec i s = .next (s.raiseFault c (encode i))) ∨
    (faultOf s.bufLen i = none ∧ overlapping i = true ∧ exec i s = .refused .overlappingCopy) ∨
    (faultOf s.bufLen i = none ∧ overlapping i = false ∧
      ∃ t, exec i s = .next t ∧ t.stateBit = s.stateBit ∧ t.cause = s.cause ∧ t.fcmd = s.fcmd) := by
  cases i with
  | mask start count =>
    rcases execMask_cases start count s with ⟨herr, he⟩ | ⟨herr, he⟩
    · exact .inl ⟨_, by rw [faultOf, herr]; rfl, he⟩
    · exact .inr (.inr ⟨by rw [faultOf, herr]; rfl, rfl, _, he, rfl, rfl, rfl⟩)
  | copy src dst so d n =>
    rcases execCopy_cases src dst so d n s with ⟨hout, he⟩ | ⟨hout, hover, he⟩ | ⟨hout, hover, he⟩
    · exact .inl ⟨_, by rw [faultOf, hout]; rfl, he⟩
    · exact .inr (.inl ⟨by rw [faultOf, hout]; rfl, hover, he⟩)
    · exact .inr (.inr ⟨by rw [faultOf, hout]; rfl, hover, _, he, by simp⟩)
  | get buf n start bc =>
    rcases execGet_cases buf n start bc s with ⟨hw, he⟩ | ⟨hw, hout, he⟩ | ⟨hw, hout, he⟩
    · exact .inl ⟨_, by rw [faultOf, hw]; rfl, he⟩
    · exact .inl ⟨_, by rw [faultOf, hw, hout]; rfl, he⟩
    · exact .inr (.inr ⟨by rw [faultOf, hw, hout]; rfl, rfl, _, he, by simp⟩)
  | set buf n start bc =>
    rcases execSet_cases buf n start bc s with ⟨hw, he⟩ | ⟨hw, hout, he⟩ | ⟨hw, hout, he⟩
    · exact .inl ⟨_, by rw [faultOf, hw]; rfl, he⟩
    · exact .inl ⟨_, by rw [faultOf, hw, hout]; rfl, he⟩
    · exact .inr (.inr ⟨by rw [faultOf, hw, hout]; rfl, rfl, _, he, by simp⟩)

theorem exec_of_faultOf {i : Instr} {s : State} {c : FaultCause} (h : faultOf s.bufLen i = some c) :
    exec i s = .next (s.raiseFault c (encode i)) := by
  rcases exec_cases i s with ⟨c', hc, he⟩ | ⟨hnone, _⟩ | ⟨hnone, _⟩
  · cases hc.symm.trans h
    exact he
  · cases hnone.symm.trans h
  · cases hnone.symm.trans h

/-! ## The same, read from the fields of the word -/

/-- A field names the buffer whose number it holds. -/
theorem getD_lens_bufIdOfField (lens : Vector Nat 16) (f : Nibble) :
    lens[f.toNat]?.getD 0 = lens[bufIdOfField f] := by
  have hf : f.toNat < 16 := f.isLt
  simp [bufIdOfField, hf]

/-- The tabulated fault of a word that decodes is the fault of its command. -/
theorem expectedFault_of_decode {cmd : Cmd} {i : Instr} (h : decode cmd = .ok i) (lens : Vector Nat 16) :
    expectedFault cmd lens = faultOf lens i := by
  have hlegal : illegalWord cmd = false := exists_decode_iff.mp ⟨i, h⟩
  have hrow := rowFields_of_decode h
  cases i with
  | mask start count =>
    obtain ⟨hop, rfl, rfl, -⟩ := hrow
    simp [expectedFault, faultOf, hlegal, hop, maskRangeErr]
  | copy src dst s d n =>
    obtain ⟨hop, rfl, rfl, -, rfl, rfl, rfl⟩ := hrow
    simp [expectedFault, faultOf, hlegal, hop, getD_lens_bufIdOfField, copyOutside, rangeOutside, Nat.one_le_iff_ne_zero]
  | get buf n start bc =>
    obtain ⟨hop, rfl, rfl, -, rfl, -, rfl⟩ := hrow
    simp [expectedFault, faultOf, hlegal, hop, getD_lens_bufIdOfField, widthInvalid, rangeOutside]
  | set buf n start bc =>
    obtain ⟨hop, rfl, rfl, -, rfl, -, rfl⟩ := hrow
    simp [expectedFault, faultOf, hlegal, hop, getD_lens_bufIdOfField, widthInvalid, rangeOutside]

theorem bufIdOfField_inj {f g : Nibble} : bufIdOfField f = bufIdOfField g ↔ f = g := by
  rw [bufIdOfField, bufIdOfField, Fin.mk.injEq, BitVec.toNat_inj]

theorem overlappingWord_of_decode {cmd : Cmd} {i : Instr} (h : decode cmd = .ok i) :
    overlappingWord cmd = overlapping i := by
  have hrow := rowFields_of_decode h
  cases i with
  | mask start count =>
    obtain ⟨hop, -⟩ := hrow
    simp [overlappingWord, overlapping, hop]
  | copy src dst s d n =>
    obtain ⟨hop, rfl, rfl, -, rfl, rfl, rfl⟩ := hrow
    rw [Bool.eq_iff_iff]
    simp [overlappingWord, overlapping, hop, copyOverlaps, bufIdOfField_inj, Nat.one_le_iff_ne_zero]
  | get buf n start bc =>
    obtain ⟨hop, -⟩ := hrow
    simp [overlappingWord, overlapping, hop]
  | set buf n start bc =>
    obtain ⟨hop, -⟩ := hrow
    simp [overlappingWord, overlapping, hop]

/-- What a READY core does with a word: the tabulated fault, or refusal of an overlapping COPY, or completion. -/
theorem step_issue_cases {s : State} {cmd : Cmd} {rest : List HostAction} (hp : s.host.pending = .issue cmd :: rest)
    (hready : s.stateBit = 0) :
    (∃ c, expectedFault cmd s.bufLen = some c ∧ step s = .next ((s.setPending rest).raiseFault c cmd)) ∨
    (expectedFault cmd s.bufLen = none ∧ overlappingWord cmd = true ∧ step s = .refused .overlappingCopy) ∨
    (expectedFault cmd s.bufLen = none ∧ overlappingWord cmd = false ∧
      ∃ t, step s = .next t ∧ t.stateBit = 0 ∧ t.cause = s.cause ∧ t.fcmd = s.fcmd) := by
  have hne : (s.setPending rest).stateBit ≠ 1 := by simp [hready]
  have hstep : step s = issue cmd (s.setPending rest) := step_action hp
  cases hillegal : illegalWord cmd with
  | true =>
    exact .inl ⟨.illegalCommand, by simp [expectedFault, hillegal], hstep.trans (issue_of_illegalWord hne hillegal)⟩
  | false =>
    obtain ⟨i, hdecode⟩ := exists_decode_iff.mpr hillegal
    rw [hstep, issue_command hne hdecode, expectedFault_of_decode hdecode, overlappingWord_of_decode hdecode,
      ← encode_of_rowFields (rowFields_of_decode hdecode), ← hready]
    exact exec_cases i (s.setPending rest)

theorem step_of_expectedFault {s : State} {cmd : Cmd} {rest : List HostAction} {c : FaultCause}
    (hp : s.host.pending = .issue cmd :: rest) (hready : s.stateBit = 0) (hc : expectedFault cmd s.bufLen = some c) :
    step s = .next ((s.setPending rest).raiseFault c cmd) := by
  rcases step_issue_cases hp hready with ⟨c', hc', he⟩ | ⟨hnone, _⟩ | ⟨hnone, _⟩
  · cases hc'.symm.trans hc
    exact he
  · cases hnone.symm.trans hc
  · cases hnone.symm.trans hc

/-- A word without a tabulated fault leaves a READY core READY, if it goes on at all. -/
theorem stateBit_of_expectedFault_none {s t : State} {cmd : Cmd} {rest : List HostAction}
    (hp : s.host.pending = .issue cmd :: rest) (hready : s.stateBit = 0) (hnone : expectedFault cmd s.bufLen = none)
    (h : step s = .next t) : t.stateBit = 0 := by
  rcases step_issue_cases hp hready with ⟨_, hc, _⟩ | ⟨_, _, he⟩ | ⟨_, _, t', he, hstate, _⟩
  · cases hnone.symm.trans hc
  · cases he.symm.trans h
  · cases he.symm.trans h
    exact hstate

/-- Settles O41: of the three things a READY core can do with a word, its tables decide which. -/
theorem faultsExactlyAsTabulated : Obligations.FaultsExactlyAsTabulated := by
  unfold Obligations.FaultsExactlyAsTabulated
  refine ⟨⟨rfl, rfl, rfl, rfl⟩, fun s cmd rest hp hready => ⟨fun c hc => step_of_expectedFault hp hready hc, ?_⟩⟩
  rcases step_issue_cases hp hready with ⟨c, hc, _⟩ | ⟨_, hover, he⟩ | ⟨_, hover, hcompletes⟩
  · simp [hc]
  · simp [hover, he]
  · simpa [hover] using fun _ => hcompletes

/-- Settles O38: the fault is decided by the word and the lengths, which the two cores share. -/
theorem dataNeverFaults : Obligations.DataNeverFaults := by
  unfold Obligations.DataNeverFaults
  intro s s' t t' cmd rest rest' hp hp' hready hready' hlen h h'
  cases hfault : expectedFault cmd s.bufLen with
  | some c =>
    cases (step_of_expectedFault hp hready hfault).symm.trans h
    cases (step_of_expectedFault hp' hready' (hlen ▸ hfault)).symm.trans h'
    exact ⟨rfl, fun _ => ⟨rfl, rfl⟩⟩
  | none =>
    have ht := stateBit_of_expectedFault_none hp hready hfault h
    have ht' := stateBit_of_expectedFault_none hp' hready' (hlen ▸ hfault) h'
    simp [ht, ht']

theorem FaultCause.code_mem_range (c : FaultCause) : 1 ≤ c.code.toNat ∧ c.code.toNat ≤ 4 := by
  cases c <;> decide

/-- Settles O42: a core that ends FAULTED took the tabulated fault, and fault entry is three writes. -/
theorem faultEntryWritesOnlyTheRecord : Obligations.FaultEntryWritesOnlyTheRecord := by
  unfold Obligations.FaultEntryWritesOnlyTheRecord
  intro s t cmd rest hp hready h hfaulted
  cases hfault : expectedFault cmd s.bufLen with
  | some c =>
    cases (step_of_expectedFault hp hready hfault).symm.trans h
    obtain ⟨hlo, hhi⟩ := c.code_mem_range
    exact ⟨rfl, hlo, hhi, rfl⟩
  | none => cases hfaulted.symm.trans (stateBit_of_expectedFault_none hp hready hfault h)

/-! ## The causes of rules R82 and R83, command by command -/

/-- A command that goes on leaves `CAUSE`, or sets the code of its own fault. -/
theorem cause_of_exec {i : Instr} {s t : State} (h : exec i s = .next t) :
    t.cause = s.cause ∨ ∃ c, faultOf s.bufLen i = some c ∧ t.cause = c.code := by
  rcases exec_cases i s with ⟨c, hc, he⟩ | ⟨_, _, he⟩ | ⟨_, _, t', he, _, hcause, _⟩ <;> cases he.symm.trans h
  · exact .inr ⟨c, hc, rfl⟩
  · exact .inl hcause

theorem faultOf_copy_eq_some {lens : Vector Nat 16} {src dst : BufId} {s d n : Operand} {c : FaultCause}
    (h : faultOf lens (.copy src dst s d n) = some c) : c = .outOfBounds := by
  obtain ⟨_, hc⟩ := Option.ite_none_right_eq_some.mp h
  exact (Option.some.inj hc).symm

theorem faultOf_mask_eq_some {lens : Vector Nat 16} {start count : Nibble} {c : FaultCause}
    (h : faultOf lens (.mask start count) = some c) : c = .maskRange := by
  obtain ⟨_, hc⟩ := Option.ite_none_right_eq_some.mp h
  exact (Option.some.inj hc).symm

theorem faultOf_field_of_widthInvalid {n : Nibble} {bc : Operand} (h : bc.toNat = 0 ∨ 8 * n.toNat < bc.toNat)
    (lens : Vector Nat 16) (buf : BufId) (start : Operand) :
    faultOf lens (.get buf n start bc) = some .invalidWidth ∧ faultOf lens (.set buf n start bc) = some .invalidWidth := by
  have hw : widthInvalid n.toNat bc.toNat = true := by simpa [widthInvalid] using h
  exact ⟨if_pos hw, if_pos hw⟩

/-- Settles O39: the width is the first thing GET and SET look at, and the fault of a COPY or MASK is another. -/
theorem invalidWidthFault : Obligations.InvalidWidthFault := by
  unfold Obligations.InvalidWidthFault
  refine ⟨fun buf n start bc s h => ?_, fun src dst so d n s t h => ?_, fun start count s t h => ?_⟩
  · obtain ⟨hget, hset⟩ := faultOf_field_of_widthInvalid h s.bufLen buf start
    exact ⟨exec_of_faultOf hget, exec_of_faultOf hset⟩
  · rcases cause_of_exec h with hkept | ⟨c, hc, hcause⟩
    · exact .inl hkept
    · rw [faultOf_copy_eq_some hc] at hcause
      exact .inr hcause
  · rcases cause_of_exec h with hkept | ⟨c, hc, hcause⟩
    · exact .inl hkept
    · rw [faultOf_mask_eq_some hc] at hcause
      exact .inr hcause

/-- Settles O40: past the width check, a range beyond its buffer is the fault; a legal width fits `ACC` (rule R10). -/
theorem outOfBoundsFault : Obligations.OutOfBoundsFault := by
  unfold Obligations.OutOfBoundsFault
  refine ⟨fun src dst so d n s hn h => exec_of_faultOf (c := .outOfBounds) ?_, fun buf n start bc s hbc hwidth h => ?_,
    fun n bc hn hwidth => ?_⟩
  · have hout : copyOutside s.bufLen[src] s.bufLen[dst] so.toNat d.toNat n.toNat = true := by
      rw [← Bool.not_eq_false, copyOutside_eq_false]
      omega
    exact if_pos hout
  · have hw := widthInvalid_eq_false.mpr ⟨hbc, hwidth⟩
    have hout : rangeOutside s.bufLen[buf] start.toNat bc.toNat = true := decide_eq_true h
    exact ⟨exec_of_faultOf (c := .outOfBounds) (by rw [faultOf, hw, hout]; rfl),
      exec_of_faultOf (c := .outOfBounds) (by rw [faultOf, hw, hout]; rfl)⟩
  · rw [accBitStart_eq_pad hwidth]
    exact pad_add_le hn hwidth

/-! ## The FAULTED core (rule R88) -/

/-- No step but a reset changes the record of a FAULTED core. -/
theorem StepsTo.record_eq_of_faulted {s t : State} (h : StepsTo s t) (hfaulted : s.stateBit = 1)
    (hreset : ∀ l rest, s.host.pending ≠ .reset l :: rest) :
    t.stateBit = s.stateBit ∧ t.cause = s.cause ∧ t.fcmd = s.fcmd := by
  cases h with
  | reset hp => exact absurd hp (hreset _ _)
  | illegal _ hready _ => cases hready.symm.trans hfaulted
  | command _ hready _ _ => cases hready.symm.trans hfaulted
  | idle _ => exact ⟨rfl, rfl, rfl⟩
  | ignored _ _ => exact ⟨rfl, rfl, rfl⟩
  | writeAcc _ => exact ⟨rfl, rfl, rfl⟩
  | writeByte _ _ => exact ⟨rfl, rfl, rfl⟩
  | loadBuffer _ _ => simp
  | read _ _ => exact ⟨rfl, rfl, rfl⟩

/-- The step of a FAULTED core is refused only for a host access outside its buffer, and nothing ends the run with a fault. -/
theorem exists_step_of_faulted {s : State} {a : HostAction} {rest : List HostAction} (hfaulted : s.stateBit = 1)
    (hp : s.host.pending = a :: rest) (hinside : hostActionOutside a s = false) : ∃ t, step s = .next t := by
  cases hstep : step s with
  | next t => exact ⟨t, rfl⟩
  | fault r => nomatch r
  | refused r =>
    rcases (stepStopsOnlyThere s r).mp hstep with ⟨_, a', rest', hp', houtside⟩ | ⟨_, hready, _⟩
    · cases hp.symm.trans hp'
      cases hinside.symm.trans houtside
    · cases hready.symm.trans hfaulted

/-- Settles O43: a FAULTED core does not issue, and the host's other actions do as they do on a READY one. -/
theorem faultedUntilReset : Obligations.FaultedUntilReset := by
  unfold Obligations.FaultedUntilReset
  intro s hfaulted
  obtain ⟨hwriteAcc, -⟩ := hostRegisterAccess
  obtain ⟨hwriteByte, hload, -⟩ := hostBufferAccess
  refine ⟨fun cmd rest hp => ?_, fun t h hreset => ?_, fun l rest hp => ⟨_, step_action hp, rfl, rfl, rfl⟩,
    fun i v rest hp => hwriteAcc s rest i v hp, fun id k v rest hp hk => hwriteByte s rest id k v hp hk,
    fun id bytes rest hp hlen => ?_, fun what rest hp hinside => ?_,
    fun a rest hp hinside => exists_step_of_faulted hfaulted hp hinside⟩
  · exact (step_action hp).trans (issue_faulted (s := s.setPending rest) hfaulted cmd)
  · obtain ⟨hstate, hcause, hfcmd⟩ := (stepsTo_of_step h).record_eq_of_faulted hfaulted hreset
    exact ⟨hstate.trans hfaulted, hcause, hfcmd⟩
  · obtain ⟨t, h, ht, hhit, hmiss⟩ := hload s rest id bytes hp hlen.le
    exact ⟨t, h, ht, hhit, fun id' j hne => hmiss id' j fun ⟨heq, _⟩ => hne heq⟩
  · exact ⟨_, step_read hp (by rw [readable_eq_not_hostActionOutside, hinside]; rfl), rfl⟩

end Sys2Proof.Machine
end

section
/-! Reset: what it does in every state, and that it is the only way out of FAULTED (rule R96). -/

namespace Sys2Proof.Machine

/-- Reset after fixing lengths writes the core's registers, and of the rest only the lengths and the buffers. -/
theorem resetCore_fixLengths_eq (s : State) (l : List (BufId × Nat)) :
    (s.fixLengths l).resetCore =
      { s.resetCore with bufLen := (s.fixLengths l).bufLen, buf := (s.fixLengths l).buf } :=
  State.ext_fields rfl rfl rfl rfl rfl rfl rfl (fixLengths_host s l)

theorem fixLengths_bufLen_of_not_named (s : State) {l : List (BufId × Nat)} {id : BufId} (hnot : ∀ n, (id, n) ∉ l) :
    (s.fixLengths l).bufLen[id] = s.bufLen[id] := by
  rw [fixLengths_bufLen, setLengths_of_not_named _ _ _ (by simpa using hnot)]

theorem fixLengths_buf_of_not_named (s : State) {l : List (BufId × Nat)} {id : BufId} (hnot : ∀ n, (id, n) ∉ l) :
    (s.fixLengths l).buf[id] = s.buf[id] := by
  rw [fixLengths_buf, if_neg (by simpa using hnot)]

/-- A step that leaves FAULTED is a reset: any other step keeps the record. -/
theorem StepsTo.reset_of_leaves_faulted {s t : State} (h : StepsTo s t) (hfaulted : s.stateBit = 1)
    (hready : t.stateBit = 0) : ∃ l rest, s.host.pending = .reset l :: rest := by
  by_contra hreset
  push Not at hreset
  obtain ⟨hstate, -, -⟩ := h.record_eq_of_faulted hfaulted hreset
  cases hready.symm.trans (hstate.trans hfaulted)

/-- Settles O46: the step fixes the lengths, which changes named buffers only, and then resets the core; every other step keeps
a fault's record. -/
theorem resetEffect : Obligations.ResetEffect := by
  unfold Obligations.ResetEffect
  refine ⟨fun s l rest hp => ?_, fun s rest hp => step_action hp,
    fun s t h hfaulted hready => (stepsTo_of_step h).reset_of_leaves_faulted hfaulted hready⟩
  exact ⟨((s.setPending rest).fixLengths l).resetCore, step_action hp, resetCore_fixLengths_eq (s.setPending rest) l,
    fun id hnot => ⟨fixLengths_bufLen_of_not_named (s.setPending rest) hnot,
      fixLengths_buf_of_not_named (s.setPending rest) hnot⟩⟩

end Sys2Proof.Machine
end

section
/-! The words of the spec's decoder vectors (95_test_vectors.md section 2.1): a legal word is recognised by encoding, an illegal
one by the condition of rule R44 its fields meet. -/

namespace Sys2Proof.Machine

/-- A word is decoded by naming the well-formed instruction it encodes (rule R43). -/
theorem decode_of_encode_eq {cmd : Cmd} {i : Instr} (h : encode i = cmd) (hwf : i.wellFormed = true) :
    decode cmd = .ok i :=
  h ▸ decodeOfEncode i hwf

/-! ## The condition a word is refused under (rule R44, in the order of rule R47) -/

section
variable {cmd : Cmd}

theorem decode_eq_reservedField (hrsv : fieldRSV cmd ≠ 0) : decode cmd = .error .reservedField := if_pos hrsv

theorem decode_eq_opcode (hrsv : fieldRSV cmd = 0) (hop : fieldOP cmd = 0 ∨ 5 ≤ (fieldOP cmd).toNat) :
    decode cmd = .error .opcode := by
  have hne : fieldOP cmd ≠ 1 ∧ fieldOP cmd ≠ 2 ∧ fieldOP cmd ≠ 3 ∧ fieldOP cmd ≠ 4 := by
    refine ⟨?_, ?_, ?_, ?_⟩ <;> intro h <;> simp [h] at hop
  obtain ⟨h1, h2, h3, h4⟩ := hne
  simp only [decode, hrsv, h1, h2, h3, h4, ne_eq, not_true_eq_false, if_false]

theorem decode_field_eq_unusedField (hrsv : fieldRSV cmd = 0) (hop : fieldOP cmd = 3 ∨ fieldOP cmd = 4)
    (hy : fieldY cmd ≠ 0) : decode cmd = .error .unusedField := by
  rcases hop with hop | hop <;> simp [decode, hrsv, hop, show ¬fieldY cmd = 0#32 from hy]

theorem decode_eq_accessorCount (hrsv : fieldRSV cmd = 0) (hop : fieldOP cmd = 3 ∨ fieldOP cmd = 4)
    (hy : fieldY cmd = 0) (hcount : legalAccessorCount (fieldFB cmd) = false) :
    decode cmd = .error .accessorCount := by
  rcases hop with hop | hop <;> simp [decode, hrsv, hop, hy, hcount]

end

/-- Settles O5: five of the words are encodings (V-E12 to V-E16), and V-E1, V-E4, V-E7, V-E9 each meet one condition of R44. -/
theorem specWordsDecode : Obligations.SpecWordsDecode := by
  unfold Obligations.SpecWordsDecode
  refine ⟨?mask, ?copy, ?get, ?set, ?copyZero, ?opcode, ?reserved, ?unused, ?count⟩
  case mask | copy | get | set | copyZero => exact decode_of_encode_eq (by decide) rfl
  case opcode => exact decode_eq_opcode (by decide) (.inl (by decide))
  case reserved => exact decode_eq_reservedField (by decide)
  case unused => exact decode_field_eq_unusedField (by decide) (.inl (by decide)) (by decide)
  case count => exact decode_eq_accessorCount (by decide) (.inl (by decide)) (by decide) (by decide)

end Sys2Proof.Machine
end
